-- ==== Sys2Proof/Word.lean ====
section
/-! DEFINITION. The words of the block (00_scope.md R9, R11, R12): bytes, limbs, cursors, table indices and the
four-limb field element. Nothing in the block is signed. -/

namespace Sys2Proof

/-- `u8`: one ROM byte (R9). -/
abbrev Byte := BitVec 8

/-- `u64`: a limb, an unsigned 64-bit integer (R9, R12). -/
abbrev Limb := BitVec 64

/-- The 16-bit command word (R67). -/
abbrev CmdWord := BitVec 16

/-- The 10-bit index field of a command word (R67, R68). -/
abbrev Idx := BitVec 10

/-- The 3-bit selector of the sequencer (R69). -/
abbrev Sel := BitVec 3

/-- A record, or four limbs, read as one 256-bit little-endian integer `W` (R61, R66). -/
abbrev Wide := BitVec 256

/-- An agent that issues commands. The block itself knows no identifiers (R143); the tag only says to whom a
response is delivered (R10, `respond`). -/
abbrev AgentId := Nat

/-- The four limbs `(a, b, c, d)` of one record, `a` from the lowest offset (R11, R44). -/
structure Limbs where
  a : Limb
  b : Limb
  c : Limb
  d : Limb
deriving DecidableEq, Repr, Inhabited

/-- A field element: four limbs, 256 bits, and nothing else, no flag, tag or validity bit (R11, R24). -/
structure FE where
  l0 : Limb
  l1 : Limb
  l2 : Limb
  l3 : Limb
deriving DecidableEq, Repr, Inhabited

end Sys2Proof
end

