-- ==== Sys2Proof/Syntax.lean ====
section
/-! DEFINITION. The operations of the block, one constructor per row of the opcode table (30_encoding.md R65), and
the bits each is selected by (R66, R67, R69). -/

namespace Sys2Proof

/-- The ten operations that have a row in the opcode table. RESET is an event and has none (R65). -/
inductive Instr where
  /-- `LE64(B)`, a datapath function on a sequence of bytes, lowest offset first (R80). -/
  | le64 (bytes : List Byte)
  /-- `CHUNK(C)`, a datapath function on a sequence of bytes, lowest offset first (R82). -/
  | chunk (bytes : List Byte)
  /-- `FROMRAW(a, b, c, d)`, a datapath function on four limbs (R90). -/
  | fromraw (a b c d : Limb)
  /-- `INIT` (R100). -/
  | init
  /-- `READ idx` (R104). -/
  | read (idx : Idx)
  /-- `STEP`, a move of the loader agent (R102). -/
  | step
  /-- `FINISH`, a move of the loader agent (R103). -/
  | finish
  /-- `CHKLEN`, a test command (R120). -/
  | chklen
  /-- `CHKNZ idx`, a test command (R121). -/
  | chknz (idx : Idx)
  /-- `CHKRT idx`, a test command (R122). -/
  | chkrt (idx : Idx)
deriving DecidableEq, Repr

/-- The four commands that are gated on `phase` and may be held (R106, R126). -/
inductive Gated where
  | read (idx : Idx)
  | chklen
  | chknz (idx : Idx)
  | chkrt (idx : Idx)
deriving DecidableEq, Repr

/-- A gated command as an operation of the table. -/
def Gated.toInstr : Gated → Instr
  | .read idx => .read idx
  | .chklen => .chklen
  | .chknz idx => .chknz idx
  | .chkrt idx => .chkrt idx

/-- A datapath function and its operand bits. It has no opcode: the bits are its operand in format LIMB or REC,
and which function is meant is said by the wiring, not by the bits (R66). -/
inductive Datapath where
  /-- LE64 on the 64-bit pattern of format LIMB (R60). -/
  | le64 (v : Limb)
  /-- CHUNK on the 256-bit pattern of format REC (R61). -/
  | chunk (w : Wide)
  /-- FROMRAW on four limbs laid out as format REC (R63, R66). -/
  | fromraw (w : Wide)
deriving DecidableEq, Repr

/-- The bits an operation is selected by (R65): a command word, the sequencer's selector, or a datapath operand. -/
inductive Selection where
  | command (w : CmdWord)
  | sequencer (sel : Sel)
  | datapath (d : Datapath)
deriving DecidableEq, Repr

end Sys2Proof
end

