-- ==== Sys2Proof/WellFormed.lean ====
section
/-! DEFINITION. Which terms of `Instr` are operations of the block: LE64 has exactly 8 operand bytes and CHUNK
exactly 32 (R80, R82); "LE64 of fewer or more bytes is not defined and never requested" (R81 (d)). Every other
operand is legal at every value of its width (R67, R71). -/

namespace Sys2Proof

/-- The operand widths of R80 and R82. -/
def Instr.wf : Instr → Bool
  | .le64 bytes => bytes.length == 8
  | .chunk bytes => bytes.length == 32
  | .fromraw _ _ _ _ => true
  | .init => true
  | .read _ => true
  | .step => true
  | .finish => true
  | .chklen => true
  | .chknz _ => true
  | .chkrt _ => true

/-- An operation whose operands have the widths the spec gives them. -/
abbrev WellFormed (i : Instr) : Prop := i.wf = true

end Sys2Proof
end

