-- ==== Sys2Proof/Decode.lean ====
section
/-! DEFINITION. The decoder and the encoder: command words (R67, R68, R70), the sequencer's selector (R69) and the
operand layouts of the datapath functions (R60, R61, R66). Decoding is total and rejects by name. -/

namespace Sys2Proof

/-- Why a selection is no operation. -/
inductive Reject where
  /-- `op` is 0x0, 0x3 or 0x7 to 0xF (R70 (a)). -/
  | reservedOp
  /-- `rsv` is not 0b00 (R70 (b)). -/
  | reservedBits
  /-- `idx` is not 0 with INIT or CHKLEN (R70 (c)). -/
  | indexNotZero
  /-- The selector is neither 0b010 nor 0b011: the loader agent has no step (R69). -/
  | noLoaderStep
deriving DecidableEq, Repr

/-- The five command operations (R67). -/
inductive CmdOp where
  | init
  | read
  | chklen
  | chknz
  | chkrt
deriving DecidableEq, Repr

/-- One row of the command table of R67. -/
structure CmdRow where
  pattern : CmdWord
  mask : CmdWord
  op : CmdOp
deriving DecidableEq, Repr

/-- The command rows of R67, their `match` and `mask` columns. -/
def cmdRows : List CmdRow :=
  [ { pattern := 0x1000#16, mask := 0xFFFF#16, op := .init },
    { pattern := 0x2000#16, mask := 0xFC00#16, op := .read },
    { pattern := 0x4000#16, mask := 0xFFFF#16, op := .chklen },
    { pattern := 0x5000#16, mask := 0xFC00#16, op := .chknz },
    { pattern := 0x6000#16, mask := 0xFC00#16, op := .chkrt } ]

/-- "A word `w` selects the row with `(w AND mask) = match`" (R67). -/
def CmdRow.selects (r : CmdRow) (w : CmdWord) : Bool := w &&& r.mask == r.pattern

/-- `idx = w[9:0]`, unsigned, used as it stands (R68). -/
def idxField (w : CmdWord) : Idx := w.extractLsb' 0 10

/-- `op = w[15:12]` (R67). -/
def opField (w : CmdWord) : BitVec 4 := w.extractLsb' 12 4

/-- `rsv = w[11:10]` (R67). -/
def rsvField (w : CmdWord) : BitVec 2 := w.extractLsb' 10 2

/-- The operation of a row, its index operand taken from the word. -/
def CmdOp.build (op : CmdOp) (idx : Idx) : Instr :=
  match op with
  | .init => .init
  | .read => .read idx
  | .chklen => .chklen
  | .chknz => .chknz idx
  | .chkrt => .chkrt idx

/-- Is `op` one of the five operation numbers of R67? -/
def opKnown (op : BitVec 4) : Bool := op == 1 || op == 2 || op == 4 || op == 5 || op == 6

/-- The clause of R70 a word that selects no row falls under. -/
def rejectReason (w : CmdWord) : Reject :=
  if opKnown (opField w) = false then .reservedOp
  else if rsvField w ≠ 0 then .reservedBits
  else .indexNotZero

/-- A command word to its operation (R67, R70 (a) to (c)). R70 (d), a test command while `TEST_EN = false`, is
checked where the command is performed. -/
def decodeCommand (w : CmdWord) : Except Reject Instr :=
  match cmdRows.find? (fun r => r.selects w) with
  | some r => .ok (r.op.build (idxField w))
  | none => .error (rejectReason w)

/-- The loader agent's step the selector selects (R69). -/
def decodeSequencer (sel : Sel) : Except Reject Instr :=
  if sel = 0b010#3 then .ok .step
  else if sel = 0b011#3 then .ok .finish
  else .error .noLoaderStep

/-- The `n` bytes of a number, least significant first (R43, R60). -/
def leBytes : Nat → Nat → List Byte
  | 0, _ => []
  | n + 1, v => BitVec.ofNat 8 v :: leBytes n (v / 256)

/-- The number a byte sequence spells, least significant byte first: the sum of `B[n] * 2^(8n)` (R43). -/
def leNat : List Byte → Nat
  | [] => 0
  | b :: bs => b.toNat + 256 * leNat bs

/-- A datapath operand to the function applied to it: the bytes of format LIMB or REC, or the four limb fields of
format REC (R60, R61, R66). Every operand is legal (R71). -/
def decodeDatapath : Datapath → Instr
  | .le64 v => .le64 (leBytes 8 v.toNat)
  | .chunk w => .chunk (leBytes 32 w.toNat)
  | .fromraw w => .fromraw (w.extractLsb' 0 64) (w.extractLsb' 64 64) (w.extractLsb' 128 64) (w.extractLsb' 192 64)

/-- The decoder: total, rejecting by name. -/
def decode : Selection → Except Reject Instr
  | .command w => decodeCommand w
  | .sequencer sel => decodeSequencer sel
  | .datapath d => .ok (decodeDatapath d)

/-- The command word with the given `op` and `idx` and `rsv = 0b00` (R67). -/
def cmdWord (op : BitVec 4) (idx : Idx) : CmdWord := op ++ 0b00#2 ++ idx

/-- The bits of a well-formed operation, from the same tables: R67 for commands, R69 for the loader's steps, R60 and
R61 for the datapath operands. -/
def encode : Instr → Selection
  | .le64 bytes => .datapath (.le64 (BitVec.ofNat 64 (leNat bytes)))
  | .chunk bytes => .datapath (.chunk (BitVec.ofNat 256 (leNat bytes)))
  | .fromraw a b c d => .datapath (.fromraw (d ++ c ++ b ++ a))
  | .init => .command (cmdWord 0x1 0)
  | .read idx => .command (cmdWord 0x2 idx)
  | .step => .sequencer 0b010#3
  | .finish => .sequencer 0b011#3
  | .chklen => .command (cmdWord 0x4 0)
  | .chknz idx => .command (cmdWord 0x5 idx)
  | .chkrt idx => .command (cmdWord 0x6 idx)

/-- The selection a table row of `nbits` bits and value `w` stands for: 16 bits are a command word, up to 8 bits the
3-bit selector, 64 bits an operand of LE64, 256 bits a record, which the table lists for CHUNK and for FROMRAW alike
(R66) and which is read as CHUNK's operand (log entry 20). -/
def selectTableWord (nbits w : Nat) : Option Selection :=
  if nbits = 16 then (if w < 2 ^ 16 then some (.command (BitVec.ofNat 16 w)) else none)
  else if nbits = 3 ∨ nbits = 8 then (if w < 2 ^ 3 then some (.sequencer (BitVec.ofNat 3 w)) else none)
  else if nbits = 64 then (if w < 2 ^ 64 then some (.datapath (.le64 (BitVec.ofNat 64 w))) else none)
  else if nbits = 256 then (if w < 2 ^ 256 then some (.datapath (.chunk (BitVec.ofNat 256 w))) else none)
  else none

/-- What the decoder reads from an opcode-table word. -/
def decodeTableWord (nbits w : Nat) : Option Instr :=
  (selectTableWord nbits w).bind fun sel => (decode sel).toOption

end Sys2Proof
end

