-- ==== Sys2Proof/Config.lean ====
section
/-! DEFINITION. What is fixed for the machine and what the spec leaves open: the parameters of R7, the names of the
straps of R8, and the free values, each a constant with no body, of which nothing can be proved. -/

namespace Sys2Proof

/-- `N_REC` of the hardware instance (R7). -/
def Config.nRecHardware : Nat := 960

/-- `REC_BYTES`, bytes per record (R7). -/
def Config.recBytes : Nat := 32

/-- `BUILD_MODE` (R8, R33): the decode runs at first use, or reset delivers the finished table. -/
inductive BuildMode where
  | lazyBuild
  | prebuilt
deriving DecidableEq, Repr

/-- Which field library is attached. The spec leaves it open (R8, D18, D19): `blackBox` is that open library, about
which only totality is assumed; `plain` and `mont` are the two illustrations `LIB_PLAIN` and `LIB_MONT` of
95_test_vectors.md section 5 (log entry 13). -/
inductive FieldLib where
  | blackBox
  | plain
  | mont
deriving DecidableEq, Repr

/-- `FeEq` (R8, R121): limb-wise by default, or equality of `FieldVal`, or the open library's own function. -/
inductive FeEqChoice where
  | limbwise
  | byValue
  | library
deriving DecidableEq, Repr

/-- `P`, the open library's prime (R8, N3). -/
opaque Config.prime : Nat.Primes

/-- `FieldVal`, the value the open library gives four raw limbs (R8, R92, N4). -/
opaque Config.fieldVal : FE → ZMod Config.prime.val

/-- `ZERO`, the open library's additive identity (R8). -/
opaque Config.zero : FE

/-- `ENC_LEN`, the open library's encoding length (R8, N5). -/
opaque Config.encLen : Nat

/-- `Encode` of the open library, `ENC_LEN` bytes (R8, R64). -/
opaque Config.encode : FE → (Fin Config.encLen → Byte)

/-- `Decode` of the open library, an element or none (R8, R64). -/
opaque Config.decode : (Fin Config.encLen → Byte) → Option FE

/-- `FeEq` of the open library (R8, N19). -/
opaque Config.feEq : FE → FE → Bool

/-- FREE VALUE: what the cursor `i` holds after a RESET that leaves it unspecified (R33, U11; log entry 4). -/
opaque Config.freeI : Nat → BitVec 15

/-- FREE VALUE: what the cursor `j` holds after a RESET that leaves it unspecified (R33, U11; log entry 4). -/
opaque Config.freeJ : Nat → BitVec 10

end Sys2Proof
end

