-- ==== Sys2Proof/Machine/State.lean ====
section
/-! DEFINITION. Everything the spec gives the block to hold (10_state.md), as plain data, and its value after reset. -/

namespace Sys2Proof.Machine

/-- ROM bytes as (offset, byte) pairs in one canonical form: offsets strictly rising, no pair whose byte is what an
unlisted offset reads as (`Memory.unlisted`, Ops). -/
abbrev Memory := List Host.Cell

/-- The Constant Table as (index, element) pairs, indices strictly rising; an index with no pair holds no value (R29). -/
abbrev Table := List (Nat × FE)

/-- The held commands as (agent, command) pairs, agents strictly rising: at most one per agent (R32). -/
abbrev Pending := List (AgentId × Gated)

/-- The once-guard (R25). -/
inductive Phase where
  | unbuilt
  | busy
  | ready
  | fault
deriving DecidableEq, Repr

/-- The fault cause (R26). Code 3 is reserved and never written, so it has no name here. -/
inductive FCode where
  | noFault
  | resLength
  | resMissing
deriving DecidableEq, Repr

/-- Response status (R133). -/
inductive Status where
  | ok
  | errFault
  | errIllegal
  | errIndex
deriving DecidableEq, Repr

/-- Response data (R63, R133): nothing, a field element, or the answer of a check. -/
inductive RespData where
  | noData
  | element (e : FE)
  | check (pass : Bool)
deriving DecidableEq, Repr

/-- A response, delivered to the agent that issued the command (R10, R133). -/
structure Response where
  agent : AgentId
  status : Status
  data : RespData
deriving DecidableEq, Repr

/-- What the last transition delivered: nothing (also: the command is held), a response, or the result of a datapath
function. DESIGN CHOICE (log entry 7): the form of this field is the model's; no operation reads it. -/
inductive Output where
  | silent
  | response (r : Response)
  | limb (v : Limb)
  | limbs (v : Limbs)
  | element (e : FE)
deriving DecidableEq, Repr

/-- One move of an agent (R111). DESIGN CHOICE (log entries 5, 8): the model's form of an interleaving. -/
inductive Event where
  /-- The loader agent takes the step its selector gives it, if any (R69). -/
  | loader
  /-- An agent issues a command word (R67). -/
  | command (agent : AgentId) (w : CmdWord)
  /-- The held command of an agent is re-examined (R106). -/
  | poll (agent : AgentId)
  /-- A datapath function is evaluated on an operand; nothing but `out` changes (R66; log entry 8). -/
  | evaluate (d : Datapath)
  /-- The host's RESET (R150). -/
  | reset
deriving DecidableEq, Repr

/-- The ROM, the straps and the field library (R8, R20, R21). They are parameters, not registers: constant, and
written by no operation. DESIGN CHOICE (log entry 1): they stand in State so that a statement about every state is
one about every ROM and every strap. -/
structure Platform where
  /-- `ROM_LEN`; `none` is a missing resource (R8). -/
  romLen : Option Nat
  /-- `ROM_IMAGE` (R8, R40). -/
  rom : Memory
  /-- `N_REC`: 960, or lower in a test instance (R7, D25). -/
  nRec : Nat
  /-- `BUILD_MODE` (R8). -/
  buildMode : BuildMode
  /-- `TEST_EN` (R8). -/
  testEn : Bool
  /-- The field library (R8). -/
  lib : FieldLib
  /-- `FeEq` (R8). -/
  feEq : FeEqChoice
deriving DecidableEq, Repr

/-- The state of the block, its interface, and the moves still to come. -/
structure State where
  /-- ROM, straps, library: constant (R20, R21). -/
  plat : Platform
  /-- The once-guard (R25). -/
  phase : Phase
  /-- The fault cause (R26). -/
  fcode : FCode
  /-- Byte offset of the next chunk (R23). -/
  i : BitVec 15
  /-- Index of the next table entry (R23). -/
  j : BitVec 10
  /-- The Constant Table (R28, R29). -/
  table : Table
  /-- Held commands (R32). -/
  pending : Pending
  /-- The agent whose command is being performed (R10; log entry 22). -/
  requester : AgentId
  /-- What the last transition delivered (log entry 7). -/
  out : Output
  /-- The moves still to come (R111; log entry 5). -/
  schedule : List Event
  /-- How many times RESET has drawn free cursor values (log entry 4). -/
  draws : Nat
deriving DecidableEq, Repr

/-- Why a transition stops the machine. Each is unreachable from a state that meets the invariants of R109. -/
inductive Fault where
  /-- Raised by READ, CHKNZ and CHKRT in READY for an entry that holds no value: "must fault, not return zero"
  (R29). Safe. -/
  | unwrittenEntry
  /-- Raised by STEP for a chunk that ends past ROM_LEN: `MemRead` is defined only inside the ROM (R10, R42). Safe. -/
  | romRange
  /-- Raised by STEP for a table index that does not exist (R42). Safe. -/
  | tableRange
  /-- Raised by LE64 and CHUNK on an operand that is not 8, or 32, bytes: "not defined and never requested" (R81 (d)).
  Safe. -/
  | operandLength
deriving DecidableEq, Repr

/-- Why an operation has no transition. -/
inductive Refusal where
  /-- An operation without a meaning in this model; no arm of `exec` answers with it. Safe. -/
  | notModelled (mnemonic : String)
  /-- Raised by STEP and FINISH performed when the selector does not select them: the loader agent has no such step
  (R69, V4.16, V4.18, V4.19). The loader's own move never raises it. Safe. -/
  | notSelected
deriving DecidableEq, Repr

/-- The platform State.reset starts with. The spec gives `N_REC = 960`, `ROM_LEN = 30720` for a correct build, the
defaults LAZY and limb-wise, and false in production (R7, R8). DESIGN CHOICE (log entries 2, 13, 14, 15): the image
that lists nothing, and the black-box library. -/
def Platform.initial : Platform where
  romLen := some 30720
  rom := []
  nRec := Config.nRecHardware
  buildMode := .lazyBuild
  testEn := false
  lib := .blackBox
  feEq := .limbwise

/-- The machine right after reset in LAZY mode (R33, R150): UNBUILT, NONE, no entry holds a value, nothing pending.
DESIGN CHOICE (log entry 3): the cursors, which the spec leaves unspecified, are 0. -/
def State.reset : State where
  plat := Platform.initial
  phase := .unbuilt
  fcode := .noFault
  i := 0
  j := 0
  table := []
  pending := []
  requester := 0
  out := .silent
  schedule := []
  draws := 0

end Sys2Proof.Machine
end

