-- ==== Sys2Proof/Machine/Flags.lean ====
section
/-! DEFINITION. The block has no condition flags (R24). What it shows instead: the codes of its two registers (R25,
R26), the status output (R25), the response codes (R133), and the sequencer's selector (R69). -/

namespace Sys2Proof.Machine

/-- The 2-bit code of `phase` (R25). -/
def Phase.code : Phase → BitVec 2
  | .unbuilt => 0b00#2
  | .busy => 0b01#2
  | .ready => 0b10#2
  | .fault => 0b11#2

/-- The 2-bit code of `fcode` (R26). -/
def FCode.code : FCode → BitVec 2
  | .noFault => 0#2
  | .resLength => 1#2
  | .resMissing => 2#2

/-- The 2-bit code of a response status (R133). -/
def Status.code : Status → BitVec 2
  | .ok => 0#2
  | .errFault => 1#2
  | .errIllegal => 2#2
  | .errIndex => 3#2

/-- A check's answer as response data: 1 is PASS, 0 is FAIL (R133). -/
def checkCode (pass : Bool) : BitVec 1 := if pass then 1#1 else 0#1

/-- Status output `ready` (R25). -/
def State.readyOut (s : State) : Bool := s.phase == .ready

/-- Status output `fault` (R25). -/
def State.faultOut (s : State) : Bool := s.phase == .fault

/-- The status output every agent can read: `ready`, `fault` and `fcode` (R25, R26). -/
def State.statusOut (s : State) : Bool × Bool × BitVec 2 := (s.readyOut, s.faultOut, s.fcode.code)

/-- `at_end`: `i = ROM_LEN` (R69). -/
def State.atEnd (s : State) : Bool := s.plat.romLen == some s.i.toNat

/-- `sel = phase[1:0] || at_end` (R69). -/
def State.sel (s : State) : Sel := s.phase.code ++ (if s.atEnd then 1#1 else 0#1)

end Sys2Proof.Machine
end

