-- ==== Sys2Proof/Machine/Library.lean ====
section
/-! DEFINITION. The field library the validation pass calls (R8, R64, D19): the open black box, and the two
illustrations of 95_test_vectors.md section 5. No production operation uses anything of this file (R92). -/

namespace Sys2Proof.Machine

/-- `RawInt`: the four limbs as an integer, limb 0 least significant (R92; general knowledge G3). -/
def rawInt (x : FE) : Nat :=
  x.l0.toNat + 2 ^ 64 * x.l1.toNat + 2 ^ 128 * x.l2.toNat + 2 ^ 192 * x.l3.toNat

/-- `Limbs(n)`, the inverse of `RawInt` below `2^256` (95_test_vectors.md section 5). -/
def limbsOf (n : Nat) : FE where
  l0 := BitVec.ofNat 64 n
  l1 := BitVec.ofNat 64 (n / 2 ^ 64)
  l2 := BitVec.ofNat 64 (n / 2 ^ 128)
  l3 := BitVec.ofNat 64 (n / 2 ^ 192)

/-- `q` of the illustrative libraries (95_test_vectors.md section 5). PRESUMED there: general knowledge G1. -/
def illustrativePrime : Nat := 0x73eda753299d7d483339d80809a1d80553bda402fffe5bfeffffffff00000001

/-- `R^-1 mod q` of LIB_MONT (95_test_vectors.md section 5). -/
def montInverse : Nat := 0x1bbe869330009d577204078a4f77266aab6fca8f09dc705f13f75b69fe75c040

/-- `P` (R8). -/
def fieldPrime : FieldLib → Nat
  | .blackBox => Config.prime.val
  | .plain => illustrativePrime
  | .mont => illustrativePrime

/-- `FieldVal` as the residue below `P` it denotes (R8, R92). -/
def fieldVal (lib : FieldLib) (x : FE) : Nat :=
  match lib with
  | .blackBox => (Config.fieldVal x).val
  | .plain => rawInt x % illustrativePrime
  | .mont => rawInt x * montInverse % illustrativePrime

/-- `FE(0, 0, 0, 0)`. -/
def zeroLimbs : FE := { l0 := 0, l1 := 0, l2 := 0, l3 := 0 }

/-- `ZERO` (R8, R121). -/
def fieldZero : FieldLib → FE
  | .blackBox => Config.zero
  | .plain => zeroLimbs
  | .mont => zeroLimbs

/-- `ENC_LEN` (R8). -/
def encLen : FieldLib → Nat
  | .blackBox => Config.encLen
  | .plain => 32
  | .mont => 32

/-- Byte `k` of `LE32(n)` (95_test_vectors.md section 5). -/
def le32Byte (n : Nat) (k : Nat) : Byte := BitVec.ofNat 8 (n / 256 ^ k)

/-- The inverse of `LE32` (95_test_vectors.md section 5). -/
def le32Value (bytes : Fin 32 → Byte) : Nat :=
  (List.finRange 32).foldr (fun k acc => (bytes k).toNat + 256 * acc) 0

/-- `Encode`: `ENC_LEN` bytes (R8, R64). -/
def fieldEncode (lib : FieldLib) (x : FE) : Fin (encLen lib) → Byte :=
  match lib with
  | .blackBox => Config.encode x
  | .plain => fun k => le32Byte (fieldVal .plain x) k.val
  | .mont => fun k => le32Byte (fieldVal .mont x) k.val

/-- `Decode`: an element or none (R8, R64). -/
def fieldDecode (lib : FieldLib) (bytes : Fin (encLen lib) → Byte) : Option FE :=
  match lib, bytes with
  | .blackBox, bytes => Config.decode bytes
  | .plain, bytes =>
    if le32Value bytes < illustrativePrime then some (limbsOf (le32Value bytes)) else none
  | .mont, bytes =>
    if le32Value bytes < illustrativePrime then some (limbsOf (le32Value bytes * 2 ^ 256 % illustrativePrime))
    else none

/-- `FeEq` (R8, R121). -/
def feEq (p : Platform) (x y : FE) : Bool :=
  match p.feEq with
  | .limbwise => x == y
  | .byValue => fieldVal p.lib x == fieldVal p.lib y
  | .library => Config.feEq x y

/-- Does an element survive encode and decode (R122)? -/
def roundTrips (p : Platform) (x : FE) : Bool :=
  match fieldDecode p.lib (fieldEncode p.lib x) with
  | none => false
  | some e => feEq p e x

end Sys2Proof.Machine
end

