-- ==== Sys2Proof/Machine/Operands.lean ====
section
/-! DEFINITION. The datapath: bytes to a limb (R80), a record to four limbs (R82), four limbs to a field element
(R90). Pure functions wired into STEP (R66); nothing here adds, reduces, masks or swaps (R91, R112). -/

namespace Sys2Proof.Machine

/-- `zext_64(B[n])` (R80). -/
def zextByte (B : List Byte) (n : Nat) : Limb := (B.getD n 0).setWidth 64

/-- `LE64(B)` on a sequence of exactly 8 bytes, the pseudocode of R80. -/
def le64 (B : List Byte) : Limb :=
  zextByte B 0
    ||| (zextByte B 1 <<< 8)
    ||| (zextByte B 2 <<< 16)
    ||| (zextByte B 3 <<< 24)
    ||| (zextByte B 4 <<< 32)
    ||| (zextByte B 5 <<< 40)
    ||| (zextByte B 6 <<< 48)
    ||| (zextByte B 7 <<< 56)

/-- `B[m .. n)` (R11). -/
def slice (B : List Byte) (m n : Nat) : List Byte := (B.drop m).take (n - m)

/-- `CHUNK(C)` on a sequence of exactly 32 bytes, the pseudocode of R82. -/
def chunk (C : List Byte) : Limbs where
  a := le64 (slice C 0 8)
  b := le64 (slice C 8 16)
  c := le64 (slice C 16 24)
  d := le64 (slice C 24 32)

/-- `FROMRAW(a, b, c, d)`: the four limbs as they stand (R90). -/
def fromRaw (a b c d : Limb) : FE where
  l0 := a
  l1 := b
  l2 := c
  l3 := d

/-- `FROMRAW(CHUNK(C))`: the element of one record (R102, R107). -/
def elementOf (C : List Byte) : FE := fromRaw (chunk C).a (chunk C).b (chunk C).c (chunk C).d

/-- The 256 bits of the read-response port: `l0` in bits 63:0 up to `l3` in bits 255:192 (R63). -/
def fePort (e : FE) : Wide := e.l3 ++ e.l2 ++ e.l1 ++ e.l0

end Sys2Proof.Machine
end

