-- ==== Sys2Proof/Machine/Ops.lean ====
section
/-! DEFINITION. The named operations over the ROM, the table and the held commands, and the shared transitions:
answering, holding, taking ResourceShape, starting the build, the gating of R104, and RESET. -/

namespace Sys2Proof.Machine

/-- What a transition answers. -/
abbrev Result := Host.Outcome State Fault Refusal

/-! ### Sparse cells: lists of (key, value) with keys strictly rising -/

/-- The value a key is listed with. -/
def findCell {α : Type} : List (Nat × α) → Nat → Option α
  | [], _ => none
  | (k, v) :: rest, key => if k = key then some v else findCell rest key

/-- List `value` at `key`, in place of what stood there. -/
def setCell {α : Type} : List (Nat × α) → Nat → α → List (Nat × α)
  | [], key, value => [(key, value)]
  | (k, v) :: rest, key, value =>
    if key < k then (key, value) :: (k, v) :: rest
    else if key = k then (key, value) :: rest
    else (k, v) :: setCell rest key value

/-- Unlist a key. -/
def dropCell {α : Type} : List (Nat × α) → Nat → List (Nat × α)
  | [], _ => []
  | (k, v) :: rest, key => if k = key then rest else (k, v) :: dropCell rest key

/-- Keys strictly rising. -/
abbrev Rising {α : Type} (cells : List (Nat × α)) : Prop := cells.Pairwise fun x y => x.1 < y.1

/-! ### The ROM byte space (R40) -/

/-- What an unlisted offset reads as. DESIGN CHOICE (log entry 2). -/
def Memory.unlisted : Byte := 0

/-- The canonical form: offsets strictly rising, no entry equal to what an unlisted offset reads as. -/
abbrev Memory.wf (m : Memory) : Prop := Rising m ∧ ∀ c ∈ m, c.2 ≠ Memory.unlisted

/-- `ROM[n]` of an image (R10). Reading never changes anything. -/
def Memory.read (m : Memory) (n : Nat) : Byte := (findCell m n).getD Memory.unlisted

/-- The `n` bytes from `addr` on, lowest offset first (R10). -/
def Memory.bytes (m : Memory) (addr n : Nat) : List Byte := (List.range n).map fun k => m.read (addr + k)

/-- The image whose byte at offset `start + k` is `bytes[k]`: the host attaching a ROM before reset (R147). -/
def Memory.ofBytesAt (start : Nat) : List Byte → Memory
  | [] => []
  | b :: rest =>
    if b = Memory.unlisted then Memory.ofBytesAt (start + 1) rest
    else (start, b) :: Memory.ofBytesAt (start + 1) rest

/-- `ROM_LEN_EXPECTED = N_REC * REC_BYTES` (R7). -/
def Platform.romLenExpected (p : Platform) : Nat := p.nRec * Config.recBytes

/-- The platform of this hardware or of a test instance: at most 960 records (R7, D25), a canonical image, and no byte
listed outside `0 .. ROM_LEN - 1` (R8, R40). -/
abbrev Platform.wf (p : Platform) : Prop :=
  p.nRec ≤ Config.nRecHardware ∧ p.rom.wf ∧ ∀ c ∈ p.rom, c.1 < p.romLen.getD 0

/-- `MemRead(addr, n)`: defined only when `addr + n <= ROM_LEN` (R10). -/
def memRead (p : Platform) (addr n : Nat) : Option (List Byte) :=
  match p.romLen with
  | none => none
  | some len => if addr + n ≤ len then some (p.rom.bytes addr n) else none

/-- The resource-shape defect of a platform, if it has one (R100, R131). `LEN_CHECK` is VALIDATE always (D3). -/
def Platform.defect (p : Platform) : Option FCode :=
  match p.romLen with
  | none => some .resMissing
  | some len => if len = p.romLenExpected then none else some .resLength

/-- `DecodeRecord(ROM, k)` (R107). -/
def decodeRecord (rom : Memory) (k : Nat) : FE := elementOf (rom.bytes (Config.recBytes * k) Config.recBytes)

/-- `DecodeTable(ROM, n)` (R107). -/
def decodeTable (rom : Memory) (n : Nat) : List FE := (List.range n).map (decodeRecord rom)

/-! ### The table index space (R41) -/

/-- `T[k]`, or no value (R29). -/
def Table.get (t : Table) (k : Nat) : Option FE := findCell t k

/-- `T[k] <- e` (R10). -/
def Table.set (t : Table) (k : Nat) (e : FE) : Table := setCell t k e

/-- The table of which every entry below `n` holds a value: the finished table as reset delivers it (R151). -/
def Table.filled (rom : Memory) (n : Nat) : Table := (List.range n).map fun m => (m, decodeRecord rom m)

/-- Canonical, and no entry at an index that does not exist (R42). -/
abbrev Table.wf (t : Table) (n : Nat) : Prop := Rising t ∧ ∀ c ∈ t, c.1 < n

/-- Does every entry `T[m]`, `0 <= m < n`, hold a value (R120)? -/
def Table.full (t : Table) (n : Nat) : Bool := (List.range n).all fun m => (t.get m).isSome

/-- The whole-table view: the entries in order when READY, and it does not exist otherwise (R75, R104). -/
def State.tableView (s : State) : Option (List FE) :=
  match s.phase with
  | .ready => (List.range s.plat.nRec).mapM s.table.get
  | .unbuilt => none
  | .busy => none
  | .fault => none

/-! ### Shared transitions -/

/-- Deliver something, or nothing. -/
def State.emit (s : State) (o : Output) : State := { s with out := o }

/-- `respond`: a response to the agent that issued the command (R10, R133). -/
def State.answer (s : State) (status : Status) (data : RespData) : State :=
  s.emit (.response { agent := s.requester, status := status, data := data })

/-- `hold`: the command stays pending, with no response (R10, R106); at most one per agent (R32). -/
def State.hold (s : State) (g : Gated) : State :=
  { s with pending := setCell s.pending s.requester g, out := .silent }

/-- TAKING THE EXCEPTION: ResourceShape sets `phase` and `fcode`, and the command that found it ends with ERR_FAULT;
nothing else is saved and control goes nowhere (R138). There is no return from it but RESET (R139). -/
def State.takeResourceShape (s : State) (cause : FCode) : State :=
  { s with phase := .fault, fcode := cause }.answer .errFault .noData

/-- ResourceShape again, for a command that meets FAULT: `fcode` is never overwritten (R101, R139). -/
def State.raiseAgain (s : State) : State := s.answer .errFault .noData

/-- `i <- 0; j <- 0; phase <- BUSY` (R100). -/
def State.beginBuild (s : State) : State := { s with phase := .busy, i := 0, j := 0 }

/-- INIT's transition from UNBUILT, one test-and-set (R55, R100): the fault, or the build is begun and the command
that was the first use goes on with `andThen`. -/
def State.firstUse (s : State) (andThen : State → State) : State :=
  match s.plat.defect with
  | some cause => s.takeResourceShape cause
  | none => andThen s.beginBuild

/-- Is the index of a gated command an entry's (R49, R135)? CHKLEN carries none. -/
def gateInRange (g : Gated) (nRec : Nat) : Bool :=
  match g with
  | .read idx => decide (idx.toNat < nRec)
  | .chklen => true
  | .chknz idx => decide (idx.toNat < nRec)
  | .chkrt idx => decide (idx.toNat < nRec)

/-- The gating arms READ, CHKLEN, CHKNZ and CHKRT share word for word (R104, R126), in the order of R137: IndexRange
before the phase is looked at, then the answer in READY, INIT's transition and hold in UNBUILT, hold in BUSY,
ResourceShape in FAULT. -/
def gated (g : Gated) (inReady : State → Result) (s : State) : Result :=
  if gateInRange g s.plat.nRec = false then .next (s.answer .errIndex .noData)
  else
    match s.phase with
    | .ready => inReady s
    | .unbuilt => .next (s.firstUse fun t => t.hold g)
    | .busy => .next (s.hold g)
    | .fault => .next s.raiseAgain

/-- A test command exists only with `TEST_EN`; without it its word is illegal, which comes before everything else
(R70 (d), R134, R137). -/
def testOnly (perform : State → Result) (s : State) : Result :=
  if s.plat.testEn then perform s else .next (s.answer .errIllegal .noData)

/-- Answer from the table entry of an index (R104, R121, R122). An entry without a value is a fault, never a default
(R29). -/
def fromEntry (idx : Idx) (data : FE → RespData) (s : State) : Result :=
  match s.table.get idx.toNat with
  | some e => .next (s.answer .ok (data e))
  | none => .fault .unwrittenEntry

/-- The result of a datapath function whose operand has the length the spec defines it for (R66, R81 (d)). -/
def datapathResult (bytes : List Byte) (width : Nat) (result : List Byte → Output) (s : State) : Result :=
  if bytes.length = width then .next (s.emit (result bytes)) else .fault .operandLength

/-- `T[j] <- e; (i, j) <- (i + 32, j + 1)` (R102). -/
def State.storeEntry (s : State) (e : FE) : State :=
  { s with
    table := s.table.set s.j.toNat e
    i := s.i + BitVec.ofNat 15 Config.recBytes
    j := s.j + 1
    out := .silent }

/-- `phase <- READY` (R103). -/
def State.publish (s : State) : State := { s with phase := .ready, out := .silent }

/-! ### RESET (R33, R150, R151) -/

/-- What RESET clears in every mode: the fault code, every table entry, every held command. The cursors become
unspecified: free values, fresh at each draw (U11; log entry 4). -/
def State.cleared (s : State) : State :=
  { s with
    phase := .unbuilt
    fcode := .noFault
    i := Config.freeI s.draws
    j := Config.freeJ s.draws
    table := []
    pending := []
    out := .silent
    draws := s.draws + 1 }

/-- The finished table, delivered by reset itself in PREBUILT mode (R151). -/
def State.prebuiltReady (s : State) : State :=
  { s with
    phase := .ready
    fcode := .noFault
    i := BitVec.ofNat 15 s.plat.romLenExpected
    j := BitVec.ofNat 10 s.plat.nRec
    table := Table.filled s.plat.rom s.plat.nRec
    pending := []
    out := .silent }

/-- RESET: one atomic transition from any state (R150). ROM, straps and library are untouched; held commands are
dropped with no response. In PREBUILT mode the table is finished, or the resource-shape defect is found, by reset
itself (R151). -/
def State.takeReset (s : State) : State :=
  match s.plat.buildMode with
  | .lazyBuild => s.cleared
  | .prebuilt =>
    match s.plat.defect with
    | none => s.prebuiltReady
    | some cause => { s.cleared with phase := .fault, fcode := cause }

end Sys2Proof.Machine
end

