-- ==== Sys2Proof/Machine/Constructor.lean ====
section
/-! DEFINITION. The field-element constructor from raw limbs (41_field_constructor.md): FROMRAW. -/

namespace Sys2Proof.Machine

/-- `FROMRAW(a, b, c, d)`: total, never refuses, no reduction (R90). -/
def execFromraw (a b c d : Limb) (s : State) : Result := .next (s.emit (.element (fromRaw a b c d)))

end Sys2Proof.Machine
end

