-- ==== Sys2Proof/Machine/Deserializer.lean ====
section
/-! DEFINITION. The little-endian limb deserializer (40_limb_deserializer.md): LE64 and CHUNK. Pure functions: they
write nothing but the model's own `out` (log entry 7). -/

namespace Sys2Proof.Machine

/-- `LE64(B)` (R80). -/
def execLe64 (bytes : List Byte) (s : State) : Result :=
  datapathResult bytes 8 (fun B => .limb (le64 B)) s

/-- `CHUNK(C)` (R82). -/
def execChunk (bytes : List Byte) (s : State) : Result :=
  datapathResult bytes 32 (fun C => .limbs (chunk C)) s

end Sys2Proof.Machine
end

