-- ==== Sys2Proof/Machine/Loader.lean ====
section
/-! DEFINITION. The ROM/table loader (42_table_loader.md): INIT, STEP, FINISH and READ. -/

namespace Sys2Proof.Machine

/-- `INIT` (R100, R101): starts the build, or takes ResourceShape; a no-op answering OK once the build has begun, and
ResourceShape again in FAULT. -/
def execInit (s : State) : Result :=
  match s.phase with
  | .unbuilt => .next (s.firstUse fun t => t.answer .ok .noData)
  | .busy => .next (s.answer .ok .noData)
  | .ready => .next (s.answer .ok .noData)
  | .fault => .next s.raiseAgain

/-- `STEP` (R102), one atomic transition, enabled exactly when the selector is 0b010 (R69). -/
def execStep (s : State) : Result :=
  if s.sel ≠ 0b010#3 then .refused .notSelected
  else
    match memRead s.plat s.i.toNat Config.recBytes with
    | none => .fault .romRange
    | some C => if s.j.toNat < s.plat.nRec then .next (s.storeEntry (elementOf C)) else .fault .tableRange

/-- `FINISH` (R103), enabled exactly when the selector is 0b011 (R69). The postcondition `j = 960` is a theorem, not a
check. -/
def execFinish (s : State) : Result :=
  if s.sel ≠ 0b011#3 then .refused .notSelected else .next s.publish

/-- `READ idx` (R104): in READY all four limbs as stored. -/
def execRead (idx : Idx) (s : State) : Result :=
  gated (.read idx) (fun t => fromEntry idx .element t) s

end Sys2Proof.Machine
end

