-- ==== Sys2Proof/Machine/Validation.lean ====
section
/-! DEFINITION. The validation pass (43_validation.md): CHKLEN, CHKNZ and CHKRT. They read the finished table and the
field library and write nothing; FAIL is an answer, not a fault (R126, R132). -/

namespace Sys2Proof.Machine

/-- `CHKLEN` (R120). -/
def execChklen (s : State) : Result :=
  testOnly
    (gated .chklen fun t =>
      .next (t.answer .ok (.check (decide (t.j.toNat = t.plat.nRec) && t.table.full t.plat.nRec))))
    s

/-- `CHKNZ idx` (R121). -/
def execChknz (idx : Idx) (s : State) : Result :=
  testOnly
    (gated (.chknz idx) fun t => fromEntry idx (fun e => .check (!feEq t.plat e (fieldZero t.plat.lib))) t) s

/-- `CHKRT idx` (R122). -/
def execChkrt (idx : Idx) (s : State) : Result :=
  testOnly (gated (.chkrt idx) fun t => fromEntry idx (fun e => .check (roundTrips t.plat e)) t) s

end Sys2Proof.Machine
end

