-- ==== Sys2Proof/Machine/Dispatch.lean ====
section
/-! DEFINITION. One arm per operation. -/

namespace Sys2Proof.Machine

def exec (i : Instr) (s : State) : Host.Outcome State Fault Refusal :=
  match i with
  | .le64 bytes => Sys2Proof.Machine.execLe64 bytes s
  | .chunk bytes => Sys2Proof.Machine.execChunk bytes s
  | .fromraw a b c d => Sys2Proof.Machine.execFromraw a b c d s
  | .init => Sys2Proof.Machine.execInit s
  | .read idx => Sys2Proof.Machine.execRead idx s
  | .step => Sys2Proof.Machine.execStep s
  | .finish => Sys2Proof.Machine.execFinish s
  | .chklen => Sys2Proof.Machine.execChklen s
  | .chknz idx => Sys2Proof.Machine.execChknz idx s
  | .chkrt idx => Sys2Proof.Machine.execChkrt idx s

end Sys2Proof.Machine
end

