-- ==== Sys2Proof/Machine/Agents.lean ====
section
/-! DEFINITION. The agents' moves (R111): the loader agent, an agent issuing a command, a held command re-examined,
a datapath evaluation, the host's RESET; and what happens when no move is scheduled (log entry 5). -/

namespace Sys2Proof.Machine

/-- A move that is not enabled, or delivers nothing: the state stays as it is (log entry 6). -/
def State.quiet (s : State) : State := s.emit .silent

/-- The loader agent's move: the step its selector selects, and none otherwise (R69, R111). -/
def loaderMove (s : State) : Result :=
  match decodeSequencer s.sel with
  | .ok i => exec i s
  | .error _ => .next s.quiet

/-- `IllegalCommand`: ERR_ILLEGAL and no state change of any kind, in any phase (R134). -/
def illegalCommand (s : State) : Result := .next (s.answer .errIllegal .noData)

/-- Does the agent wait for a held command (R106)? -/
def State.waits (s : State) (agent : AgentId) : Bool := (findCell s.pending agent).isSome

/-- The state in which a command of an agent is performed (R10, `respond`; log entry 22). -/
def State.onBehalfOf (s : State) (agent : AgentId) : State := { s with requester := agent }

/-- The state in which the held command of an agent is performed: no longer pending (R106). -/
def State.takeHeld (s : State) (agent : AgentId) : State :=
  { s with requester := agent, pending := dropCell s.pending agent }

/-- An agent issues a command word. An agent that waits for a held command has no such move (R32, R106, P3). -/
def issue (agent : AgentId) (w : CmdWord) (s : State) : Result :=
  if s.waits agent then .next s.quiet
  else
    match decodeCommand w with
    | .ok i => exec i (s.onBehalfOf agent)
    | .error _ => illegalCommand (s.onBehalfOf agent)

/-- A held command is enabled again exactly when `phase` is READY or FAULT (R106). -/
def State.lifted (s : State) : Bool := s.phase == .ready || s.phase == .fault

/-- Re-examine the held command of an agent (R106): once lifted it is taken from the pending set and performed. -/
def poll (agent : AgentId) (s : State) : Result :=
  match findCell s.pending agent with
  | none => .next s.quiet
  | some g =>
    if s.lifted then exec g.toInstr (s.takeHeld agent)
    else .next s.quiet

/-- One scheduled move. -/
def perform (e : Event) (s : State) : Result :=
  match e with
  | .loader => loaderMove s
  | .command agent w => issue agent w s
  | .poll agent => poll agent s
  | .evaluate d => exec (decodeDatapath d) s
  | .reset => .next s.takeReset

/-- Has the loader agent a step (R69)? -/
def State.loaderEnabled (s : State) : Bool := s.phase == .busy

/-- With no move scheduled: the loader agent goes on while it has a step (weak fairness, R111); then the held commands
are answered, lowest agent first; then the block is quiescent (R164). -/
def unscheduledMove (s : State) : Result :=
  if s.loaderEnabled then loaderMove s
  else
    match s.pending with
    | [] => .next s.quiet
    | (agent, _) :: _ => poll agent s

/-- A command issued from outside the agents that wait: an agent with nothing pending. -/
def State.freeAgent (s : State) : AgentId := s.pending.foldr (fun c n => max (c.1 + 1) n) 0

/-- Is the word a test command's (R67: bit 14 set; D9)? -/
def isTestWord (w : CmdWord) : Bool := w.getLsbD 14

/-- Place a selection so that the very next step performs it (log entry 9): a command word is issued by an agent that
does not wait, with `TEST_EN` set where the word exists only in test mode; a loader step is put in the state in which
the selector selects it, the ROM of the right length; a datapath operand is evaluated. -/
def State.place (s : State) (sel : Selection) : State :=
  match sel with
  | .command w =>
    { s with
      plat := { s.plat with testEn := s.plat.testEn || isTestWord w }
      schedule := .command s.freeAgent w :: s.schedule }
  | .sequencer sel =>
    if sel = 0b010#3 then
      { s with
        plat := { s.plat with romLen := some s.plat.romLenExpected }
        phase := .busy, i := 0, j := 0, schedule := .loader :: s.schedule }
    else if sel = 0b011#3 then
      { s with
        plat := { s.plat with romLen := some s.plat.romLenExpected }
        phase := .busy
        i := BitVec.ofNat 15 s.plat.romLenExpected
        j := BitVec.ofNat 10 s.plat.nRec
        schedule := .loader :: s.schedule }
    else { s with schedule := .loader :: s.schedule }
  | .datapath d => { s with schedule := .evaluate d :: s.schedule }

end Sys2Proof.Machine
end

