-- ==== Sys2Proof/Machine/Step.lean ====
section
/-! DEFINITION. One transition of the whole block: the next scheduled move, or the unscheduled one. -/

namespace Sys2Proof.Machine

/-- One atomic transition (R52, R111). -/
def step (s : State) : Host.Outcome State Fault Refusal :=
  match s.schedule with
  | [] => unscheduledMove s
  | e :: rest => perform e { s with schedule := rest }

/-- `s` with the operation of an opcode-table word placed as the next move (log entry 9). -/
def State.withFetchWord (s : State) (nbits w : Nat) : State :=
  match selectTableWord nbits w with
  | some sel => s.place sel
  | none => s

end Sys2Proof.Machine
end

