-- ==== Sys2Proof/Machine/Pseudo.lean ====
section
/-! DEFINITION. The pseudo-operations LOAD and VALIDATE (R75, R105, R123): their expansions, and what they do from any
state. -/

namespace Sys2Proof.Machine

/-- Perform operations one after the other, stopping at the first that has no next state. -/
def performAll : List Instr → State → Result
  | [], s => .next s
  | i :: rest, s =>
    match exec i s with
    | .next t => performAll rest t
    | .fault r => .fault r
    | .refused r => .refused r

/-- The loader agent's steps, as many as it has, at most `n` of them; it stops where the selector selects none (R69,
R111). -/
def loaderRun : Nat → State → Result
  | 0, s => .next s
  | n + 1, s =>
    if s.loaderEnabled then
      match loaderMove s with
      | .next t => loaderRun n t
      | .fault r => .fault r
      | .refused r => .refused r
    else .next s

/-- The expansion `INIT; STEP x N_REC; FINISH` of LOAD as the operations of a build that succeeds (R75, R105). -/
def loadOps (nRec : Nat) : List Instr := .init :: (List.replicate nRec .step ++ [.finish])

/-- `LOAD` (R105): INIT, then the loader's steps. Where INIT finds the defect the loader agent has no step, so LOAD ends
in the state INIT left, with no STEP performed. R105 gives its effect from UNBUILT only. DESIGN CHOICE (log entry 28):
from BUSY it takes the loader's steps that remain, from READY and FAULT none. -/
def load (s : State) : Result :=
  match exec .init s with
  | .next t => loaderRun (t.plat.nRec + 1) t
  | .fault r => .fault r
  | .refused r => .refused r

/-- A gated command performed to its end: a command that is held waits while the loader agent takes its steps, and is
then re-examined (R106). -/
def answered (g : Gated) (s : State) : Result :=
  match exec g.toInstr s with
  | .next t =>
    if t.waits t.requester then
      match loaderRun (t.plat.nRec + 1) t with
      | .next u => poll t.requester u
      | .fault r => .fault r
      | .refused r => .refused r
    else .next t
  | .fault r => .fault r
  | .refused r => .refused r

/-- `VALIDATE = CHKLEN; for k = 0 .. N_REC - 1: CHKNZ k; CHKRT k` (R75, R123). -/
def validateChecks (nRec : Nat) : List Gated :=
  .chklen :: (List.range nRec).flatMap fun k => [.chknz (BitVec.ofNat 10 k), .chkrt (BitVec.ofNat 10 k)]

/-- Has the check just answered delivered PASS to its agent? -/
def State.passed (s : State) : Bool := s.out == .response { agent := s.requester, status := .ok, data := .check true }

/-- Perform checks in order, each to its end: the state they leave and the first that did not pass (R123). -/
def runChecks : List Gated → State → Host.Outcome (State × Option Gated) Fault Refusal
  | [], s => .next (s, none)
  | g :: rest, s =>
    match answered g s with
    | .next t =>
      match runChecks rest t with
      | .next (u, failing) => .next (u, if t.passed then failing else some g)
      | .fault r => .fault r
      | .refused r => .refused r
    | .fault r => .fault r
    | .refused r => .refused r

/-- `VALIDATE`, run by an agent that does not wait (R123): the state it leaves, and `none` for PASS or the first failing
check. From UNBUILT or BUSY the first check waits for the build (R126). -/
def validate (agent : AgentId) (s : State) : Host.Outcome (State × Option Gated) Fault Refusal :=
  runChecks (validateChecks s.plat.nRec) (s.onBehalfOf agent)

end Sys2Proof.Machine
end

