-- ==== Sys2Proof/Safety.lean ====
section
/-! DEFINITION. The terms claims use: the invariants of R109, and how bits of an element and of a record are named. -/

namespace Sys2Proof.Machine

/-- (I1): BUSY implies the length is right, `i = 32 * j`, `0 <= j <= N_REC`, `T[m] = DecodeRecord(ROM, m)` for every
`m < j`, and no value from `j` on (R109). -/
def BusyInv (s : State) : Prop :=
  s.plat.buildMode = .lazyBuild ∧ s.plat.defect = none ∧ s.fcode = .noFault ∧
    s.i.toNat = Config.recBytes * s.j.toNat ∧ s.j.toNat ≤ s.plat.nRec ∧
    ∀ m, s.table.get m = if m < s.j.toNat then some (decodeRecord s.plat.rom m) else none

/-- (I2): READY implies `i = ROM_LEN_EXPECTED`, `j = N_REC`, NONE, and `T[m] = DecodeRecord(ROM, m)` for every
`m < N_REC` (R109). -/
def ReadyInv (s : State) : Prop :=
  s.plat.defect = none ∧ s.fcode = .noFault ∧ s.i.toNat = s.plat.romLenExpected ∧ s.j.toNat = s.plat.nRec ∧
    ∀ m, s.table.get m = if m < s.plat.nRec then some (decodeRecord s.plat.rom m) else none

/-- (I3): FAULT implies the resource has the defect `fcode` names and no entry holds a value (R109); no command is
held, since a fault is found at the first use (R138). -/
def FaultInv (s : State) : Prop := s.plat.defect = some s.fcode ∧ s.table = [] ∧ s.pending = []

/-- (I4): UNBUILT implies no entry holds a value (R109); it is LAZY's alone, and no command is held in it. -/
def UnbuiltInv (s : State) : Prop :=
  s.plat.buildMode = .lazyBuild ∧ s.fcode = .noFault ∧ s.table = [] ∧ s.pending = []

/-- The clause of R109 for the phase the block is in. -/
def PhaseInv (s : State) : Prop :=
  match s.phase with
  | .unbuilt => UnbuiltInv s
  | .busy => BusyInv s
  | .ready => ReadyInv s
  | .fault => FaultInv s

/-- The invariants of R109, with the canonical forms of the ROM, the table and the held commands (R29, R32, R40). -/
structure LoaderInv (s : State) : Prop where
  plat : s.plat.wf
  table : s.table.wf s.plat.nRec
  pending : Rising s.pending
  phase : PhaseInv s

/-- Limb number `m` of a record: 0 is `a`, 3 is `d` (R61). -/
def limbNo (l : Limbs) (m : Nat) : Limb :=
  match m with
  | 0 => l.a
  | 1 => l.b
  | 2 => l.c
  | _ => l.d

/-- Limb number `m` of an element: 0 is `l0`, 3 is `l3` (R63). -/
def feLimb (e : FE) (m : Nat) : Limb :=
  match m with
  | 0 => e.l0
  | 1 => e.l1
  | 2 => e.l2
  | _ => e.l3

/-- `B[at] + B[at+1] * 2^8 + ... + B[at+7] * 2^56` of a byte function (R43). -/
def leSum (byte : Nat → Byte) (at' : Nat) : Nat := ∑ n ∈ Finset.range 8, (byte (at' + n)).toNat * 2 ^ (8 * n)

/-- A byte sequence with bit `t` of byte `n` flipped (R83 (b), R93 (a)). -/
def flipBit (C : List Byte) (n t : Nat) : List Byte := C.modify n fun b => b ^^^ (1#8 <<< t)

/-- A command of the command port: not a datapath function and not a loader step (R65). -/
def isCommand : Instr → Bool
  | .le64 _ => false
  | .chunk _ => false
  | .fromraw _ _ _ _ => false
  | .init => true
  | .read _ => true
  | .step => false
  | .finish => false
  | .chklen => true
  | .chknz _ => true
  | .chkrt _ => true

/-- The moves of `phase` between resets (R25, R109 (I5)). -/
inductive PhaseMove : Phase → Phase → Prop where
  | stay (p : Phase) : PhaseMove p p
  | start : PhaseMove .unbuilt .busy
  | defect : PhaseMove .unbuilt .fault
  | publish : PhaseMove .busy .ready

/-- The next scheduled move is the host's RESET. -/
def State.resetNext (s : State) : Prop := s.schedule.head? = some .reset

end Sys2Proof.Machine
end

