-- ==== Sys2Proof/Certificates/Slice0/Obligations.lean ====
section
/-! DEFINITION. The statements for the provers. Each docstring names the rule it formalises, or the sections it rests
on. A statement that names a choice of the model says which log entry holds it. -/

open Sys2Proof Sys2Proof.Machine

/-! ### The datapath: LE64, CHUNK, FROMRAW -/

/-- R80: LE64 of exactly 8 bytes is the sum of `B[n] * 2^(8n)`, below `2^64`, and nothing but `out` changes. Where the
result is shown (`out`) is the model's choice, log entry 7. -/
def Obligations.Le64IsLittleEndianSum : Prop :=
  ∀ (B : List Byte) (s : State), B.length = 8 →
    (le64 B).toNat = leSum (fun n => B.getD n 0) 0 ∧
    leSum (fun n => B.getD n 0) 0 < 2 ^ 64 ∧
    exec (.le64 B) s = .next { s with out := .limb (le64 B) }

/-- R81: (a) bijection with inverse `B[n] = limb[8n+7 : 8n]`, (b) locality of a bit flip, (c) byte order, (d) no operand
of another width is ever requested: neither by a selection nor by CHUNK. -/
def Obligations.Le64Laws : Prop :=
  (∀ v : Limb, ∃! B : List Byte, B.length = 8 ∧ le64 B = v) ∧
  (∀ B : List Byte, B.length = 8 → ∀ n < 8, B.getD n 0 = (le64 B).extractLsb' (8 * n) 8) ∧
  (∀ B : List Byte, B.length = 8 → ∀ n < 8, ∀ t < 8, le64 (flipBit B n t) = le64 B ^^^ (1#64 <<< (8 * n + t))) ∧
  (∀ B : List Byte, B.length = 8 → B.reverse ≠ B → le64 B.reverse ≠ le64 B) ∧
  (∀ (sel : Selection) (B : List Byte), decode sel = .ok (.le64 B) → B.length = 8) ∧
  (∀ C : List Byte, C.length = 32 → ∀ m < 4, (slice C (8 * m) (8 * m + 8)).length = 8)

/-- R82: CHUNK of exactly 32 bytes is four LE64 decodes in offset order, and nothing but `out` changes. -/
def Obligations.ChunkIsFourLimbsInOrder : Prop :=
  ∀ (C : List Byte) (s : State), C.length = 32 →
    (∀ m < 4, (limbNo (chunk C) m).toNat = leSum (fun n => C.getD n 0) (8 * m)) ∧
    exec (.chunk C) s = .next { s with out := .limbs (chunk C) }

/-- R83: bijection from 32-byte strings to four limbs, locality of a bit flip, the 256-bit reading, the §8 records. -/
def Obligations.ChunkLaws : Prop :=
  (∀ l : Limbs, ∃! C : List Byte, C.length = 32 ∧ chunk C = l) ∧
  (∀ C : List Byte, C.length = 32 → ∀ n < 32, ∀ t < 8, ∀ m < 4,
    limbNo (chunk (flipBit C n t)) m
      = if m = n / 8 then limbNo (chunk C) m ^^^ (1#64 <<< (8 * (n % 8) + t)) else limbNo (chunk C) m) ∧
  (∀ C : List Byte, C.length = 32 → ∀ m < 4,
    limbNo (chunk C) m = (BitVec.ofNat 256 (leNat C)).extractLsb' (64 * m) 64) ∧
  chunk (1#8 :: List.replicate 31 0#8) = { a := 1, b := 0, c := 0, d := 0 } ∧
  chunk (2#8 :: List.replicate 31 0#8) = { a := 2, b := 0, c := 0, d := 0 }

/-- 40_limb_deserializer.md: the operand of CHUNK is exactly 32 bytes. The model stops on any other length, which no
record of a ROM has (log entry 18). -/
def Obligations.ChunkOperandLengthStops : Prop :=
  ∀ (C : List Byte) (s : State), C.length ≠ 32 → exec (.chunk C) s = .fault .operandLength

/-- R90: the element is the four limbs, unchanged and in order; total; nothing but `out` changes. -/
def Obligations.FromrawKeepsTheLimbs : Prop :=
  ∀ (a b c d : Limb) (s : State),
    exec (.fromraw a b c d) s = .next { s with out := .element { l0 := a, l1 := b, l2 := c, l3 := d } }

/-- R93: FROMRAW is a bijection, so is FROMRAW after CHUNK, a flipped bit of a chunk flips exactly one bit of one limb;
the result depends on the operands only; the limb order is kept. -/
def Obligations.RecordToElementLaws : Prop :=
  (Function.Bijective fun l : Limbs => fromRaw l.a l.b l.c l.d) ∧
  (∀ e : FE, ∃! C : List Byte, C.length = 32 ∧ elementOf C = e) ∧
  (∀ C : List Byte, C.length = 32 → ∀ n < 32, ∀ t < 8, ∀ m < 4, ∀ k < 64,
    (feLimb (elementOf (flipBit C n t)) m).getLsbD k
      = ((feLimb (elementOf C) m).getLsbD k ^^ decide (m = n / 8 ∧ k = 8 * (n % 8) + t))) ∧
  (∀ (a b c d : Limb) (s s' t t' : State),
    exec (.fromraw a b c d) s = .next t → exec (.fromraw a b c d) s' = .next t' → t.out = t'.out) ∧
  fromRaw 1 0 0 0 ≠ fromRaw 0 0 0 1

/-- R63: the element's limbs are the operands in order, READ delivers the stored element whole, and on the read-response
port `l0` is in bits 63:0, `l1` in 127:64, `l2` in 191:128, `l3` in 255:192. -/
def Obligations.ResponsePortLayout : Prop :=
  (∀ a b c d : Limb, (List.range 4).map (feLimb (fromRaw a b c d)) = [a, b, c, d]) ∧
  (∀ (idx : Idx) (s : State) (e : FE), s.phase = .ready → idx.toNat < s.plat.nRec → s.table.get idx.toNat = some e →
    exec (.read idx) s
      = .next { s with out := .response { agent := s.requester, status := .ok, data := .element e } }) ∧
  ∀ e : FE, ∀ m < 4, (fePort e).extractLsb' (64 * m) 64 = feLimb e m

/-! ### INIT, STEP, FINISH -/

/-- R100 with its first line completed as R101 says: INIT in every phase and for every ROM length. -/
def Obligations.InitTransition : Prop :=
  ∀ s : State,
    exec .init s = .next
      (match s.phase with
      | .fault => { s with out := .response { agent := s.requester, status := .errFault, data := .noData } }
      | .busy => { s with out := .response { agent := s.requester, status := .ok, data := .noData } }
      | .ready => { s with out := .response { agent := s.requester, status := .ok, data := .noData } }
      | .unbuilt =>
        match s.plat.romLen with
        | none =>
          { s with
            phase := .fault, fcode := .resMissing
            out := .response { agent := s.requester, status := .errFault, data := .noData } }
        | some len =>
          if len = 32 * s.plat.nRec then
            { s with
              phase := .busy, i := 0, j := 0
              out := .response { agent := s.requester, status := .ok, data := .noData } }
          else
            { s with
              phase := .fault, fcode := .resLength
              out := .response { agent := s.requester, status := .errFault, data := .noData } })

/-- R101: in BUSY and READY INIT changes nothing and responds OK, in FAULT it changes nothing and raises ResourceShape
again; so a second INIT changes nothing but what is delivered: the decode is never restarted. -/
def Obligations.InitIsIdempotent : Prop :=
  ∀ s : State,
    (s.phase = .busy ∨ s.phase = .ready →
      exec .init s = .next { s with out := .response { agent := s.requester, status := .ok, data := .noData } }) ∧
    (s.phase = .fault →
      exec .init s = .next { s with out := .response { agent := s.requester, status := .errFault, data := .noData } }) ∧
    ∀ t, exec .init s = .next t → ∃ o, exec .init t = .next { t with out := o }

/-- R102: in BUSY before the end of the ROM, STEP stores at index `j`, which held no value, the element whose limbs are
the four little-endian limbs of ROM bytes `i .. i + 31`, advances both cursors, and changes nothing else. -/
def Obligations.StepBuildsOneEntry : Prop :=
  ∀ s : State, LoaderInv s → s.phase = .busy → s.i.toNat < 32 * s.plat.nRec →
    s.i.toNat + 32 ≤ 32 * s.plat.nRec ∧ s.j.toNat < s.plat.nRec ∧ s.table.get s.j.toNat = none ∧
    ∃ t e, exec .step s = .next t ∧
      (∀ m < 4, (feLimb e m).toNat = leSum s.plat.rom.read (s.i.toNat + 8 * m)) ∧
      (∀ k, t.table.get k = if k = s.j.toNat then some e else s.table.get k) ∧
      t.i.toNat = s.i.toNat + 32 ∧ t.j.toNat = s.j.toNat + 1 ∧
      t = { s with table := t.table, i := t.i, j := t.j, out := .silent }

/-- R103: in BUSY at the end of the ROM, where `j = N_REC` and every entry is written, FINISH writes `phase` alone. After
it held commands are lifted, and until a RESET the loader agent has no step ever again. -/
def Obligations.FinishPublishesTheTable : Prop :=
  ∀ s : State, LoaderInv s → s.phase = .busy → s.i.toNat = 32 * s.plat.nRec →
    s.j.toNat = s.plat.nRec ∧ (∀ m < s.plat.nRec, (s.table.get m).isSome = true) ∧
    exec .finish s = .next { s with phase := .ready, out := .silent } ∧
    ∀ t, exec .finish s = .next t →
      t.lifted = true ∧
      ∀ n u, .reset ∉ t.schedule → core.run n t = .next u →
        u.phase = .ready ∧ decodeSequencer u.sel = .error .noLoaderStep

/-- R69: `sel = phase || at_end`; 0b010 selects STEP, 0b011 selects FINISH, for every other selector the loader agent has
no step; in BUSY `at_end` is the end of a ROM of the right length. No command word is a loader step (R102, R103: only the
loader agent performs them). -/
def Obligations.SelectorChoosesTheLoaderStep : Prop :=
  (∀ s : State,
    (s.sel = 0b010#3 ↔ s.phase = .busy ∧ s.plat.romLen ≠ some s.i.toNat) ∧
    (s.sel = 0b011#3 ↔ s.phase = .busy ∧ s.plat.romLen = some s.i.toNat) ∧
    (s.sel = 0b010#3 → loaderMove s = exec .step s) ∧
    (s.sel = 0b011#3 → loaderMove s = exec .finish s) ∧
    (s.phase ≠ .busy → decodeSequencer s.sel = .error .noLoaderStep) ∧
    (LoaderInv s → s.phase = .busy → (s.atEnd = true ↔ s.i.toNat = 32 * s.plat.nRec))) ∧
  (∀ sel : Sel, sel ≠ 0b010#3 → sel ≠ 0b011#3 → decodeSequencer sel = .error .noLoaderStep) ∧
  ∀ w : CmdWord, decodeCommand w ≠ .ok .step ∧ decodeCommand w ≠ .ok .finish

/-- 30_encoding.md section 4 (SEQ), 95_test_vectors.md V4.16 to V4.19: an unselected STEP or FINISH is no transition of
the block. The model refuses it (log entry 16); the loader's own move then changes nothing (log entry 6). -/
def Obligations.UnselectedLoaderStepIsRefused : Prop :=
  ∀ s : State,
    (s.sel ≠ 0b010#3 → exec .step s = .refused .notSelected) ∧
    (s.sel ≠ 0b011#3 → exec .finish s = .refused .notSelected) ∧
    (s.sel ≠ 0b010#3 → s.sel ≠ 0b011#3 → loaderMove s = .next { s with out := .silent })

/-- 42_table_loader.md LOAD: the frame of a loader step. Every ROM byte, every strap, the fault code, every held command
and every table entry but `T[j]` are as before, from every state. -/
def Obligations.LoaderStepFrame : Prop :=
  ∀ (i : Instr) (s t : State), (i = .step ∨ i = .finish) → exec i s = .next t →
    (∀ n, t.plat.rom.read n = s.plat.rom.read n) ∧ t.plat = s.plat ∧ t.fcode = s.fcode ∧ t.pending = s.pending ∧
    t.requester = s.requester ∧ t.schedule = s.schedule ∧ t.draws = s.draws ∧ t.out = .silent ∧
    (∀ k, i = .step → k ≠ s.j.toNat → t.table.get k = s.table.get k) ∧
    (i = .step → t.phase = s.phase) ∧
    (i = .finish → t.table = s.table ∧ t.i = s.i ∧ t.j = s.j)

/-! ### READ and the gating -/

/-- R104: READ in every phase, from every state that meets the invariants: an index that is no entry is refused first;
READY answers the decoded record; UNBUILT makes INIT's transition and holds, or ends with the fault; BUSY holds; FAULT
answers ERR_FAULT. -/
def Obligations.ReadTransition : Prop :=
  ∀ (idx : Idx) (s : State), LoaderInv s →
    exec (.read idx) s = .next
      (if s.plat.nRec ≤ idx.toNat then
        { s with out := .response { agent := s.requester, status := .errIndex, data := .noData } }
      else
        match s.phase with
        | .ready =>
          { s with
            out := .response
              { agent := s.requester, status := .ok, data := .element (decodeRecord s.plat.rom idx.toNat) } }
        | .busy => { s with pending := setCell s.pending s.requester (.read idx), out := .silent }
        | .fault => { s with out := .response { agent := s.requester, status := .errFault, data := .noData } }
        | .unbuilt =>
          match s.plat.romLen with
          | none =>
            { s with
              phase := .fault, fcode := .resMissing
              out := .response { agent := s.requester, status := .errFault, data := .noData } }
          | some len =>
            if len = 32 * s.plat.nRec then
              { s with
                phase := .busy, i := 0, j := 0
                pending := setCell s.pending s.requester (.read idx), out := .silent }
            else
              { s with
                phase := .fault, fcode := .resLength
                out := .response { agent := s.requester, status := .errFault, data := .noData } })

/-- R126: with `TEST_EN` the three checks are gated exactly like READ: an index that is no entry is refused first, in
READY the check runs, in UNBUILT INIT's transition is made and the check held, in BUSY it is held, in FAULT it raises
ResourceShape. PASS or FAIL, a check changes no state. -/
def Obligations.ChecksAreGatedLikeRead : Prop :=
  ∀ (g : Gated) (s : State), s.plat.testEn = true → (∀ idx, g ≠ .read idx) →
    (gateInRange g s.plat.nRec = false →
      exec g.toInstr s
        = .next { s with out := .response { agent := s.requester, status := .errIndex, data := .noData } }) ∧
    (gateInRange g s.plat.nRec = true → s.phase = .ready →
      (∀ idx, g = .chknz idx ∨ g = .chkrt idx → (s.table.get idx.toNat).isSome = true) →
      ∃ p, exec g.toInstr s
        = .next { s with out := .response { agent := s.requester, status := .ok, data := .check p } }) ∧
    (gateInRange g s.plat.nRec = true → s.phase = .unbuilt → s.plat.romLen = some (32 * s.plat.nRec) →
      exec g.toInstr s
        = .next { s with phase := .busy, i := 0, j := 0, pending := setCell s.pending s.requester g, out := .silent }) ∧
    (gateInRange g s.plat.nRec = true → s.phase = .unbuilt → s.plat.romLen ≠ some (32 * s.plat.nRec) →
      exec g.toInstr s
        = .next
            { s with
              phase := .fault
              fcode := if s.plat.romLen = none then .resMissing else .resLength
              out := .response { agent := s.requester, status := .errFault, data := .noData } }) ∧
    (gateInRange g s.plat.nRec = true → s.phase = .busy →
      exec g.toInstr s = .next { s with pending := setCell s.pending s.requester g, out := .silent }) ∧
    (gateInRange g s.plat.nRec = true → s.phase = .fault →
      exec g.toInstr s
        = .next { s with out := .response { agent := s.requester, status := .errFault, data := .noData } })

/-- R135: READ, CHKNZ and CHKRT with an index that is no entry answer ERR_INDEX in any phase, with no state change. -/
def Obligations.IndexOutOfRangeIsRefused : Prop :=
  ∀ (idx : Idx) (s : State) (i : Instr), s.plat.nRec ≤ idx.toNat →
    (i = .read idx ∨ (s.plat.testEn = true ∧ (i = .chknz idx ∨ i = .chkrt idx))) →
    exec i s = .next { s with out := .response { agent := s.requester, status := .errIndex, data := .noData } }

/-- 42_table_loader.md, 43_validation.md: the frame of the five commands, from every state: no command writes a ROM
byte, a strap or a table entry; and once the build has begun none touches `phase`, `fcode` or a cursor. -/
def Obligations.CommandFrame : Prop :=
  ∀ (i : Instr) (s t : State), isCommand i = true → exec i s = .next t →
    (∀ n, t.plat.rom.read n = s.plat.rom.read n) ∧ t.plat = s.plat ∧ (∀ k, t.table.get k = s.table.get k) ∧
    t.requester = s.requester ∧ t.schedule = s.schedule ∧ t.draws = s.draws ∧
    (∀ a, a ≠ s.requester → findCell t.pending a = findCell s.pending a) ∧
    (s.phase ≠ .unbuilt → t.phase = s.phase ∧ t.fcode = s.fcode ∧ t.i = s.i ∧ t.j = s.j)

/-- 40_limb_deserializer.md, 41_field_constructor.md ("Writes: nothing"): a datapath function leaves everything but the
model's own `out` (log entry 7) as it was. -/
def Obligations.DatapathFrame : Prop :=
  ∀ (i : Instr) (s t : State), ((∃ B, i = .le64 B) ∨ (∃ C, i = .chunk C) ∨ ∃ a b c d, i = .fromraw a b c d) →
    exec i s = .next t → t = { s with out := t.out } ∧ ∀ n, t.plat.rom.read n = s.plat.rom.read n

/-! ### The validation pass -/

/-- R120: in READY, CHKLEN answers PASS exactly if `j = N_REC` and every entry holds a value; under the invariants that
is always PASS. Without `TEST_EN`, or with an index, it is illegal; in FAULT it raises ResourceShape. -/
def Obligations.ChklenCountsTheEntries : Prop :=
  (∀ s : State, s.plat.testEn = false →
    exec .chklen s = .next { s with out := .response { agent := s.requester, status := .errIllegal, data := .noData } }) ∧
  (∀ idx : Idx, idx ≠ 0 → decodeCommand (cmdWord 0x4 idx) = .error .indexNotZero) ∧
  (∀ s : State, s.plat.testEn = true → s.phase = .fault →
    exec .chklen s = .next { s with out := .response { agent := s.requester, status := .errFault, data := .noData } }) ∧
  ∀ s : State, s.plat.testEn = true → s.phase = .ready →
    (∃ p : Bool, (p = true ↔ s.j.toNat = s.plat.nRec ∧ ∀ m < s.plat.nRec, (s.table.get m).isSome = true) ∧
      exec .chklen s
        = .next { s with out := .response { agent := s.requester, status := .ok, data := .check p } }) ∧
    (LoaderInv s → exec .chklen s
      = .next { s with out := .response { agent := s.requester, status := .ok, data := .check true } })

/-- R121: in READY, CHKNZ answers FAIL exactly if `FeEq(T[idx], ZERO)`; with limb-wise equality and the all-zero `ZERO`
that is `(l0 | l1 | l2 | l3) != 0`. Without `TEST_EN` it is illegal, then an index that is no entry is refused, then in
FAULT it raises ResourceShape. -/
def Obligations.ChknzComparesWithZero : Prop :=
  ∀ (idx : Idx) (s : State),
    (s.plat.testEn = false → exec (.chknz idx) s
      = .next { s with out := .response { agent := s.requester, status := .errIllegal, data := .noData } }) ∧
    (s.plat.testEn = true → s.plat.nRec ≤ idx.toNat → exec (.chknz idx) s
      = .next { s with out := .response { agent := s.requester, status := .errIndex, data := .noData } }) ∧
    (s.plat.testEn = true → idx.toNat < s.plat.nRec → s.phase = .fault → exec (.chknz idx) s
      = .next { s with out := .response { agent := s.requester, status := .errFault, data := .noData } }) ∧
    ∀ e : FE, s.plat.testEn = true → idx.toNat < s.plat.nRec → s.phase = .ready → s.table.get idx.toNat = some e →
      (∃ p : Bool, (p = false ↔ feEq s.plat e (fieldZero s.plat.lib) = true) ∧
        exec (.chknz idx) s
          = .next { s with out := .response { agent := s.requester, status := .ok, data := .check p } }) ∧
      (s.plat.feEq = .limbwise → fieldZero s.plat.lib = { l0 := 0, l1 := 0, l2 := 0, l3 := 0 } →
        exec (.chknz idx) s
          = .next
              { s with
                out := .response
                  { agent := s.requester, status := .ok
                    data := .check (decide (e.l0 ||| e.l1 ||| e.l2 ||| e.l3 ≠ 0)) } })

/-- R122: in READY, CHKRT answers PASS exactly if `Decode(Encode(T[idx]))` is some element equal to the entry by `FeEq`;
with limb-wise equality, exactly if it is the entry itself. Without `TEST_EN` it is illegal, then an index that is no
entry is refused, then in FAULT it raises ResourceShape. -/
def Obligations.ChkrtRoundTrips : Prop :=
  ∀ (idx : Idx) (s : State),
    (s.plat.testEn = false → exec (.chkrt idx) s
      = .next { s with out := .response { agent := s.requester, status := .errIllegal, data := .noData } }) ∧
    (s.plat.testEn = true → s.plat.nRec ≤ idx.toNat → exec (.chkrt idx) s
      = .next { s with out := .response { agent := s.requester, status := .errIndex, data := .noData } }) ∧
    (s.plat.testEn = true → idx.toNat < s.plat.nRec → s.phase = .fault → exec (.chkrt idx) s
      = .next { s with out := .response { agent := s.requester, status := .errFault, data := .noData } }) ∧
    ∀ e : FE, s.plat.testEn = true → idx.toNat < s.plat.nRec → s.phase = .ready → s.table.get idx.toNat = some e →
      ∃ p : Bool,
        (p = true ↔
          ∃ e', fieldDecode s.plat.lib (fieldEncode s.plat.lib e) = some e' ∧ feEq s.plat e' e = true) ∧
        (s.plat.feEq = .limbwise → (p = true ↔ fieldDecode s.plat.lib (fieldEncode s.plat.lib e) = some e)) ∧
        exec (.chkrt idx) s
          = .next { s with out := .response { agent := s.requester, status := .ok, data := .check p } }

/-- 95_test_vectors.md section 5, 43_validation.md CHKRT (c): under either illustrative library with limb-wise equality
an element round-trips exactly when its limbs, read as an integer, are below the prime (log entry 13). -/
def Obligations.RoundTripMeansBelowThePrime : Prop :=
  ∀ (p : Platform) (x : FE), p.lib ≠ .blackBox → p.feEq = .limbwise →
    (roundTrips p x = true ↔ rawInt x < illustrativePrime)

/-- 43_validation.md VALIDATE: with `TEST_EN` and a ROM of the right length, the pass run by an agent that does not wait
ends in READY with the decoded table, from UNBUILT and BUSY as well (CHKLEN is then held until the build is finished).
Its result is the first check that fails, and PASS exactly if no decoded record is zero and every decoded record
round-trips: an obligation on the ROM image, not a guarantee of the block. With any other ROM, or without `TEST_EN`,
it fails at CHKLEN and no entry is written (log entry 27). -/
def Obligations.ValidateJudgesTheRom : Prop :=
  ∀ (agent : AgentId) (s : State), LoaderInv s → findCell s.pending agent = none →
    (s.plat.testEn = true → s.plat.romLen = some (32 * s.plat.nRec) →
      ∃ t failing, validate agent s = .next (t, failing) ∧ t.phase = .ready ∧ t.plat = s.plat ∧
        findCell t.pending agent = none ∧ t.tableView = some (decodeTable s.plat.rom s.plat.nRec) ∧
        failing = (validateChecks s.plat.nRec).find? (fun g =>
          match g with
          | .read _ => false
          | .chklen => false
          | .chknz idx => feEq s.plat (decodeRecord s.plat.rom idx.toNat) (fieldZero s.plat.lib)
          | .chkrt idx => !roundTrips s.plat (decodeRecord s.plat.rom idx.toNat)) ∧
        (failing = none ↔
          ∀ m < s.plat.nRec,
            feEq s.plat (decodeRecord s.plat.rom m) (fieldZero s.plat.lib) = false ∧
              roundTrips s.plat (decodeRecord s.plat.rom m) = true)) ∧
    (s.plat.testEn = true → s.plat.romLen ≠ some (32 * s.plat.nRec) →
      ∃ t, validate agent s = .next (t, some .chklen) ∧ t.phase = .fault ∧ t.table = s.table) ∧
    (s.plat.testEn = false →
      ∃ t, validate agent s = .next (t, some .chklen) ∧ t = { s with requester := agent, out := t.out })

/-! ### Encodings -/

/-- 30_encoding.md section 8: worked command words, and what each is or why it is refused. -/
def Obligations.WorkedCommandWords : Prop :=
  decodeCommand 0x1000#16 = .ok .init ∧ decodeCommand 0x2000#16 = .ok (.read 0) ∧
  decodeCommand 0x23BF#16 = .ok (.read 959) ∧ decodeCommand 0x23C0#16 = .ok (.read 960) ∧
  decodeCommand 0x4000#16 = .ok .chklen ∧ decodeCommand 0x5000#16 = .ok (.chknz 0) ∧
  decodeCommand 0x63BF#16 = .ok (.chkrt 959) ∧ decodeCommand 0x0000#16 = .error .reservedOp ∧
  decodeCommand 0x1001#16 = .error .indexNotZero ∧ decodeCommand 0x2400#16 = .error .reservedBits ∧
  decodeCommand 0x3000#16 = .error .reservedOp

/-- 30_encoding.md section 5 (a) to (c): the words that decode to no command are exactly those with a reserved `op`,
with `rsv` not 0b00, or with `idx` not 0 on INIT or CHKLEN. Clause (d) is a clause of the statement IllegalWordIsAnswered. -/
def Obligations.IllegalCommandWords : Prop :=
  ∀ w : CmdWord,
    (∃ r, decodeCommand w = .error r) ↔
      (w.extractLsb' 12 4 ∉ [1#4, 2#4, 4#4, 5#4, 6#4] ∨ w.extractLsb' 10 2 ≠ 0 ∨
        (w.extractLsb' 0 10 ≠ 0 ∧ w.extractLsb' 12 4 ∈ [1#4, 4#4]))

/-- 30_encoding.md section 4: the rows of the command table are disjoint, so at most one matches. -/
def Obligations.CommandRowsAreDisjoint : Prop :=
  ∀ (w : CmdWord) (r r' : CmdRow), r ∈ cmdRows → r' ∈ cmdRows → w &&& r.mask = r.pattern → w &&& r'.mask = r'.pattern →
    r = r'

/-- 30_encoding.md: decoding the encoding of a well-formed operation gives it back, at every operand value. -/
def Obligations.DecodeOfEncode : Prop := ∀ i : Instr, WellFormed i → decode (encode i) = .ok i

/-- 30_encoding.md: what the decoder accepts is well formed, and encoding it gives the very same bits: no bit of an
encoding is dropped and no two selections are one operation. -/
def Obligations.EncodeOfDecode : Prop :=
  ∀ (sel : Selection) (i : Instr), decode sel = .ok i → WellFormed i ∧ encode i = sel

/-- R133: the cause codes of `fcode` and of the response status, 3 being no code of `fcode`, and the data of a check;
beside them the codes of `phase` and the status output of 10_state.md section 5. -/
def Obligations.RegisterCodesAndStatusOutput : Prop :=
  [FCode.noFault, .resLength, .resMissing].map FCode.code = [0#2, 1#2, 2#2] ∧ (∀ c : FCode, c.code ≠ 3#2) ∧
  [Status.ok, .errFault, .errIllegal, .errIndex].map Status.code = [0#2, 1#2, 2#2, 3#2] ∧
  checkCode true = 1#1 ∧ checkCode false = 0#1 ∧
  [Phase.unbuilt, .busy, .ready, .fault].map Phase.code = [0b00#2, 0b01#2, 0b10#2, 0b11#2] ∧
  ∀ s : State, s.statusOut = (decide (s.phase.code = 0b10#2), decide (s.phase.code = 0b11#2), s.fcode.code)

/-! ### The step of the block: agents, holding, RESET -/

/-- 42_table_loader.md agents: a step performs the decoded operation. A scheduled command of an agent that does not wait
is `exec` of what its word decodes to, with that agent as the requester; the loader's move is `exec` of what its
selector selects; a datapath evaluation is `exec` of its operand's operation. The event is taken off the schedule (log
entries 5, 8, 22). -/
def Obligations.StepRunsTheDecodedOperation : Prop :=
  ∀ (s : State) (rest : List Event) (i : Instr),
    (∀ a w, s.schedule = .command a w :: rest → findCell s.pending a = none → decode (.command w) = .ok i →
      step s = exec i { s with schedule := rest, requester := a }) ∧
    (s.schedule = .loader :: rest → decode (.sequencer s.sel) = .ok i →
      step s = exec i { s with schedule := rest }) ∧
    (∀ d, s.schedule = .evaluate d :: rest → decode (.datapath d) = .ok i →
      step s = exec i { s with schedule := rest })

/-- R134, with the words R70 lists: a reserved `op`, a nonzero `rsv`, a nonzero `idx` on INIT or CHKLEN, or a test command
without `TEST_EN`, is answered ERR_ILLEGAL in any phase, with no state change. -/
def Obligations.IllegalWordIsAnswered : Prop :=
  ∀ (s : State) (a : AgentId) (w : CmdWord) (rest : List Event),
    s.schedule = .command a w :: rest → findCell s.pending a = none →
    (w.extractLsb' 12 4 ∉ [1#4, 2#4, 4#4, 5#4, 6#4] ∨ w.extractLsb' 10 2 ≠ 0 ∨
      (w.extractLsb' 0 10 ≠ 0 ∧ w.extractLsb' 12 4 ∈ [1#4, 4#4]) ∨
      (s.plat.testEn = false ∧ w.extractLsb' 12 4 ∈ [4#4, 5#4, 6#4])) →
    step s
      = .next
          { s with
            schedule := rest, requester := a
            out := .response { agent := a, status := .errIllegal, data := .noData } }

/-- 42_table_loader.md READ, holding: a held command is enabled again exactly when `phase` is READY or FAULT. It is then
performed as its agent's, no longer pending; a reset drops it with no response; in UNBUILT and BUSY re-examining it
changes nothing (the model's form of a move that is not enabled: log entry 6). -/
def Obligations.HeldCommandIsReexamined : Prop :=
  ∀ (s : State) (a : AgentId) (g : Gated) (rest : List Event), findCell s.pending a = some g →
    (s.schedule = .poll a :: rest → s.phase = .ready ∨ s.phase = .fault →
      step s = exec g.toInstr { s with schedule := rest, requester := a, pending := dropCell s.pending a }) ∧
    (s.schedule = .poll a :: rest → s.phase = .unbuilt ∨ s.phase = .busy →
      step s = .next { s with schedule := rest, out := .silent }) ∧
    (s.schedule = .reset :: rest → ∃ t, step s = .next t ∧ findCell t.pending a = none ∧ t.out = .silent)

/-- 10_state.md section 8 (pending commands), 95_test_vectors.md P3: an agent keeps at most one held command; while it
waits it issues nothing (the model's form of a move that is not enabled: log entry 6). -/
def Obligations.WaitingAgentIssuesNothing : Prop :=
  ∀ (s : State) (a : AgentId) (w : CmdWord) (g : Gated) (rest : List Event),
    s.schedule = .command a w :: rest → findCell s.pending a = some g →
    step s = .next { s with schedule := rest, out := .silent }

/-- R150: RESET with LAZY, from any state: UNBUILT, NONE, every entry loses its value, every held command is dropped
with no response, ROM, straps and library untouched. The cursors are unspecified: the statement holds for every value
the free values `Config.freeI`, `Config.freeJ` may have (log entry 4). -/
def Obligations.LazyResetTransition : Prop :=
  ∀ (s : State) (rest : List Event), s.schedule = .reset :: rest → s.plat.buildMode = .lazyBuild →
    ∃ t, step s = .next t ∧ t.phase = .unbuilt ∧ t.fcode = .noFault ∧ (∀ k, t.table.get k = none) ∧
      (∀ a, findCell t.pending a = none) ∧ t.plat = s.plat ∧ (∀ n, t.plat.rom.read n = s.plat.rom.read n) ∧
      t.out = .silent ∧ t.requester = s.requester ∧ t.schedule = rest

/-- R151: RESET with PREBUILT delivers the finished table, or finds the resource-shape defect; and in this mode the loader
agent never has a step and no command is ever held. -/
def Obligations.PrebuiltResetTransition : Prop :=
  (∀ (s : State) (rest : List Event), s.schedule = .reset :: rest → s.plat.buildMode = .prebuilt →
    s.plat.nRec ≤ 960 →
    ∃ t, step s = .next t ∧ t.plat = s.plat ∧ (∀ a, findCell t.pending a = none) ∧ t.out = .silent ∧
      t.schedule = rest ∧
      (s.plat.romLen = some (32 * s.plat.nRec) →
        t.phase = .ready ∧ t.fcode = .noFault ∧ t.i.toNat = 32 * s.plat.nRec ∧ t.j.toNat = s.plat.nRec ∧
          ∀ k, t.table.get k = if k < s.plat.nRec then some (decodeRecord s.plat.rom k) else none) ∧
      (s.plat.romLen = none → t.phase = .fault ∧ t.fcode = .resMissing ∧ ∀ k, t.table.get k = none) ∧
      (∀ len, s.plat.romLen = some len → len ≠ 32 * s.plat.nRec →
        t.phase = .fault ∧ t.fcode = .resLength ∧ ∀ k, t.table.get k = none)) ∧
  ∀ s : State, LoaderInv s → s.plat.buildMode = .prebuilt →
    (s.phase = .ready ∨ s.phase = .fault) ∧ decodeSequencer s.sel = .error .noLoaderStep ∧
      ∀ i t, exec i s = .next t → t.pending = s.pending

/-- 10_state.md section 9, column LAZY: what reset leaves. The ROM and the straps State.reset starts with are the
model's choice (log entries 2, 13, 14, 15), and nothing is said of the cursors (log entry 3). -/
def Obligations.StateAfterReset : Prop :=
  State.reset.phase = .unbuilt ∧ State.reset.fcode = .noFault ∧ (∀ k, State.reset.table.get k = none) ∧
    (∀ a, findCell State.reset.pending a = none) ∧ State.reset.statusOut = (false, false, 0#2) ∧
    Memory.wf State.reset.plat.rom

/-! ### Rules of the whole block -/

/-- 42_table_loader.md invariants: the reset state meets them (its ROM is the model's choice, log entry 2). -/
def Obligations.ResetMeetsTheInvariants : Prop := LoaderInv State.reset

/-- R109: every step keeps the invariants (I1) to (I4), from every state that meets them, and between resets `phase`
moves only as (I5) says. The canonical forms of the ROM, the table and the held commands are kept too. -/
def Obligations.EveryStepKeepsTheInvariants : Prop :=
  ∀ s t : State, LoaderInv s → step s = .next t → LoaderInv t ∧ (¬ s.resetNext → PhaseMove s.phase t.phase)

/-- 60_exceptions.md section 11: from a state that meets the invariants a step never stops: no entry without a value is
read, no byte outside the ROM is fetched, and the loader never takes a step it does not have; a datapath operand always
has its width. -/
def Obligations.EveryStepGoesOn : Prop := ∀ s : State, LoaderInv s → ∃ t, step s = .next t

/-- 10_state.md section 5, 42_table_loader.md (I5): between resets `phase` only moves UNBUILT to BUSY to READY, or
UNBUILT to FAULT. -/
def Obligations.PhaseMovesOnlyForward : Prop :=
  ∀ s t : State, ¬ s.resetNext → step s = .next t → PhaseMove s.phase t.phase

/-- 10_state.md section 1: the ROM and the straps are written by no operation, and not by RESET. -/
def Obligations.RomAndStrapsNeverChange : Prop :=
  ∀ s t : State, step s = .next t → t.plat = s.plat ∧ ∀ n, t.plat.rom.read n = s.plat.rom.read n

/-- 10_state.md section 6, 20_memory.md section 6 (2): once READY, no step but RESET writes the table, `phase`, `fcode`
or a cursor. -/
def Obligations.ReadyTableIsImmutable : Prop :=
  ∀ s t : State, s.phase = .ready → ¬ s.resetNext → step s = .next t →
    t.phase = .ready ∧ t.table = s.table ∧ t.i = s.i ∧ t.j = s.j ∧ t.fcode = s.fcode

/-- 60_exceptions.md section 7: FAULT is left only by RESET; `fcode` is never overwritten. -/
def Obligations.FaultIsLeftOnlyByReset : Prop :=
  ∀ s t : State, s.phase = .fault → ¬ s.resetNext → step s = .next t → t.phase = .fault ∧ t.fcode = s.fcode

/-- 42_table_loader.md, the result theorem: a step that delivers a table element answers a READ, issued or held, of some
index, in READY, and the element is the decoded record of that index. -/
def Obligations.ReadDeliversTheDecodedRecord : Prop :=
  ∀ (s t : State) (a : AgentId) (st : Status) (e : FE), LoaderInv s → step s = .next t →
    t.out = .response { agent := a, status := st, data := .element e } →
    s.phase = .ready ∧ st = .ok ∧ ∃ idx : Idx, idx.toNat < s.plat.nRec ∧ e = decodeRecord s.plat.rom idx.toNat ∧
      ((∃ w, s.schedule.head? = some (.command a w) ∧ decodeCommand w = .ok (.read idx)) ∨
        findCell s.pending a = some (.read idx))

/-- 42_table_loader.md, the result theorem: with a resource of the wrong length, or none, no command ever returns data. -/
def Obligations.BadResourceNeverGivesData : Prop :=
  ∀ (s t : State) (r : Response), LoaderInv s → s.plat.romLen ≠ some (32 * s.plat.nRec) → step s = .next t →
    t.out = .response r → r.data = .noData

/-- 10_state.md section 8, 70_reset_and_hazards.md section 3: the partial table is hidden. In BUSY two blocks that differ
only in the table and the cursors answer every command alike, and still differ only there. -/
def Obligations.PartialTableIsHidden : Prop :=
  ∀ (i : Instr) (s t : State) (table : Table) (ci : BitVec 15) (cj : BitVec 10),
    isCommand i = true → s.phase = .busy → exec i s = .next t →
    exec i { s with table := table, i := ci, j := cj } = .next { t with table := table, i := ci, j := cj }

/-- 30_encoding.md section 7 (TABLE): the whole-table view exists exactly in READY, and is the decoded table. -/
def Obligations.TableViewIsTheDecodedTable : Prop :=
  ∀ s : State, LoaderInv s →
    s.tableView = if s.phase = .ready then some (decodeTable s.plat.rom s.plat.nRec) else none

/-- R105: LOAD from UNBUILT. With a ROM of the right length it is INIT, N_REC STEPs and FINISH, and the table becomes the
decoded table; with any other the block faults, no entry is written, no cursor moves, and no STEP is performed: the
selector selects none. -/
def Obligations.LoadBuildsTheWholeTable : Prop :=
  ∀ s : State, LoaderInv s → s.phase = .unbuilt →
    (s.plat.romLen = some (32 * s.plat.nRec) →
      ∃ t, load s = .next t ∧ performAll (loadOps s.plat.nRec) s = .next t ∧ t.phase = .ready ∧ t.fcode = .noFault ∧
        t.i.toNat = 32 * s.plat.nRec ∧ t.j.toNat = s.plat.nRec ∧ t.plat = s.plat ∧
        t.tableView = some (decodeTable s.plat.rom s.plat.nRec)) ∧
    (s.plat.romLen ≠ some (32 * s.plat.nRec) →
      ∃ t, load s = .next t ∧ exec .init s = .next t ∧ t.sel ≠ 0b010#3 ∧
        t =
          { s with
            phase := .fault
            fcode := if s.plat.romLen = none then .resMissing else .resLength
            out := .response { agent := s.requester, status := .errFault, data := .noData } })

/-- R124: two finished blocks with the same ROM hold the same table, and every READ of the same index responds with the
same four limbs. -/
def Obligations.SameRomSameTable : Prop :=
  ∀ s s' : State, LoaderInv s → LoaderInv s' → s.phase = .ready → s'.phase = .ready → s.plat.rom = s'.plat.rom →
    s.plat.nRec = s'.plat.nRec →
    s.tableView = s'.tableView ∧ (∀ k, s.table.get k = s'.table.get k) ∧
    ∀ idx : Idx, idx.toNat < s.plat.nRec →
      ∃ e,
        exec (.read idx) s
          = .next { s with out := .response { agent := s.requester, status := .ok, data := .element e } } ∧
        exec (.read idx) s'
          = .next { s' with out := .response { agent := s'.requester, status := .ok, data := .element e } }

/-- R125: flipping bit `t` of the byte at offset `32k + n` leaves every other record's element as it was, and changes
exactly one bit of element `k`: bit `8 * (n mod 8) + t` of limb `n div 8`. -/
def Obligations.BitFlipIsLocal : Prop :=
  ∀ (rom rom' : Memory) (k n t : Nat), n < 32 → t < 8 →
    (∀ a, rom'.read a = if a = 32 * k + n then rom.read a ^^^ (1#8 <<< t) else rom.read a) →
    (∀ m, m ≠ k → decodeRecord rom' m = decodeRecord rom m) ∧
    (∀ l < 4, ∀ b < 64,
      (feLimb (decodeRecord rom' k) l).getLsbD b
        = ((feLimb (decodeRecord rom k) l).getLsbD b ^^ decide (l = n / 8 ∧ b = 8 * (n % 8) + t)))

/-- 42_table_loader.md agents, 70_reset_and_hazards.md section 4: with nothing scheduled, a build in progress is finished
after exactly the steps that remain: one STEP per entry still to write, and one FINISH. That an empty schedule lets the
loader move is the model's form of weak fairness (log entry 5). -/
def Obligations.BuildFinishesInTheStepsThatRemain : Prop :=
  ∀ s : State, LoaderInv s → s.phase = .busy → s.schedule = [] →
    ∃ t, core.run (s.plat.nRec - s.j.toNat + 1) s = .next t ∧ t.phase = .ready ∧ t.pending = s.pending ∧
      t.tableView = some (decodeTable s.plat.rom s.plat.nRec)

/-- 42_table_loader.md holding and agents: with nothing scheduled, once the table is READY every held command is answered,
one a step, until none is left. -/
def Obligations.HeldCommandsAreAllAnswered : Prop :=
  ∀ s : State, LoaderInv s → s.phase = .ready → s.schedule = [] →
    (∀ a g rest, s.pending = (a, g) :: rest →
      ∃ t st d, step s = .next t ∧ t.pending = rest ∧ t.out = .response { agent := a, status := st, data := d }) ∧
    ∃ t, core.run s.pending.length s = .next t ∧ t.pending = [] ∧ t.phase = .ready ∧ t.table = s.table

/-- 40_limb_deserializer.md LE64: an operand of fewer or more than 8 bytes is not defined. The model stops on it, and no
selection asks for it (log entry 18). -/
def Obligations.Le64OperandLengthStops : Prop :=
  ∀ (B : List Byte) (s : State), B.length ≠ 8 → exec (.le64 B) s = .fault .operandLength
end

