-- ==== Sys2Proof/Laws/Cells.lean ====
section
/-! SUPPORT. Laws of the sparse cells the ROM, the table and the held commands are kept in: reading after a write, and
the canonical form every operation keeps. -/

namespace Sys2Proof.Machine

variable {α : Type}

@[simp] theorem findCell_nil (k : Nat) : findCell ([] : List (Nat × α)) k = none := rfl

theorem findCell_cons (k : Nat) (v : α) (rest : List (Nat × α)) (key : Nat) :
    findCell ((k, v) :: rest) key = if k = key then some v else findCell rest key := rfl

/-- A read after a write: the value written at its key, the old value elsewhere. -/
theorem findCell_setCell (cells : List (Nat × α)) (k : Nat) (v : α) (key : Nat) :
    findCell (setCell cells k v) key = if k = key then some v else findCell cells key := by
  induction cells with
  | nil => rfl
  | cons head rest ih =>
    obtain ⟨k₀, v₀⟩ := head
    simp only [setCell]
    split
    · simp only [findCell]
    · split
      · rename_i h; subst h
        simp only [findCell]
        split <;> rfl
      · rename_i hne
        simp only [findCell, ih]
        by_cases h : k₀ = key
        · have : k ≠ key := fun h' => hne (h'.trans h.symm)
          simp [h, this]
        · simp [h]

theorem mem_setCell {cells : List (Nat × α)} {k : Nat} {v : α} {c : Nat × α} (h : c ∈ setCell cells k v) :
    c = (k, v) ∨ c ∈ cells := by
  induction cells with
  | nil => simpa [setCell] using h
  | cons head rest ih =>
    obtain ⟨k₀, v₀⟩ := head
    simp only [setCell] at h
    split at h
    · simpa using h
    · split at h
      · rcases List.mem_cons.1 h with h | h
        · exact .inl h
        · exact .inr (List.mem_cons_of_mem _ h)
      · rcases List.mem_cons.1 h with h | h
        · exact .inr (h ▸ List.mem_cons_self)
        · exact (ih h).imp_right (List.mem_cons_of_mem _)

/-- A write keeps the keys strictly rising. -/
theorem rising_setCell {cells : List (Nat × α)} (h : Rising cells) (k : Nat) (v : α) : Rising (setCell cells k v) := by
  induction cells with
  | nil => simp [setCell]
  | cons head rest ih =>
    obtain ⟨k₀, v₀⟩ := head
    obtain ⟨hlt, hrest⟩ := List.pairwise_cons.1 h
    simp only [setCell]
    split
    · rename_i hk
      refine List.pairwise_cons.2 ⟨fun c hc => ?_, h⟩
      rcases List.mem_cons.1 hc with rfl | hc
      · exact hk
      · exact hk.trans (hlt c hc)
    · split
      · rename_i hk; subst hk
        exact List.pairwise_cons.2 ⟨hlt, hrest⟩
      · refine List.pairwise_cons.2 ⟨fun c hc => ?_, ih hrest⟩
        rcases mem_setCell hc with rfl | hc
        · show k₀ < k; omega
        · exact hlt c hc

theorem mem_of_mem_dropCell {cells : List (Nat × α)} {k : Nat} {c : Nat × α} (h : c ∈ dropCell cells k) : c ∈ cells := by
  induction cells with
  | nil => exact h
  | cons head rest ih =>
    simp only [dropCell] at h
    split at h
    · exact List.mem_cons_of_mem _ h
    · rcases List.mem_cons.1 h with h | h
      · exact h ▸ List.mem_cons_self
      · exact List.mem_cons_of_mem _ (ih h)

/-- Unlisting a key keeps the keys strictly rising. -/
theorem rising_dropCell {cells : List (Nat × α)} (h : Rising cells) (k : Nat) : Rising (dropCell cells k) := by
  induction cells with
  | nil => exact h
  | cons head rest ih =>
    obtain ⟨hlt, hrest⟩ := List.pairwise_cons.1 h
    simp only [dropCell]
    split
    · exact hrest
    · exact List.pairwise_cons.2 ⟨fun c hc => hlt c (mem_of_mem_dropCell hc), ih hrest⟩

theorem findCell_eq_none_of_lt {cells : List (Nat × α)} {key : Nat} (h : ∀ c ∈ cells, key < c.1) :
    findCell cells key = none := by
  induction cells with
  | nil => rfl
  | cons head rest ih =>
    have := h head List.mem_cons_self
    simp only [findCell]
    rw [if_neg (by omega), ih fun c hc => h c (List.mem_cons_of_mem _ hc)]

/-- After a key is unlisted it has no value, and the others are as before. -/
theorem findCell_dropCell {cells : List (Nat × α)} (h : Rising cells) (k key : Nat) :
    findCell (dropCell cells k) key = if k = key then none else findCell cells key := by
  induction cells with
  | nil => simp [dropCell]
  | cons head rest ih =>
    obtain ⟨k₀, v₀⟩ := head
    obtain ⟨hlt, hrest⟩ := List.pairwise_cons.1 h
    simp only [dropCell]
    split
    · rename_i hk
      subst hk
      split
      · rename_i hk; subst hk
        exact findCell_eq_none_of_lt hlt
      · rename_i hk
        rw [findCell_cons, if_neg hk]
    · rename_i hk
      simp only [findCell, ih hrest]
      by_cases h' : k₀ = key
      · have : k ≠ key := fun h'' => hk (h'.trans h''.symm)
        simp [h', this]
      · simp [h']

theorem findCell_some_mem {cells : List (Nat × α)} {key : Nat} {v : α} (h : findCell cells key = some v) :
    (key, v) ∈ cells := by
  induction cells with
  | nil => simp at h
  | cons head rest ih =>
    obtain ⟨k₀, v₀⟩ := head
    rw [findCell_cons] at h
    split at h
    · rename_i hk; subst hk
      cases h
      exact List.mem_cons_self
    · exact List.mem_cons_of_mem _ (ih h)

end Sys2Proof.Machine
end

