-- ==== Sys2Proof/Laws/Datapath.lean ====
section
/-! SUPPORT. The datapath bit by bit: what LE64, CHUNK and FROMRAW do to every bit, said once. -/

namespace Sys2Proof.Machine

/-- Bit `k` of a limb is bit `k mod 8` of byte `k div 8` (R60, R81 (b)). -/
theorem le64_getLsbD (B : List Byte) (k : Nat) (hk : k < 64) :
    (le64 B).getLsbD k = (B.getD (k / 8) 0).getLsbD (k % 8) := by
  simp only [le64, zextByte, BitVec.getLsbD_or, BitVec.getLsbD_shiftLeft, BitVec.getLsbD_setWidth, hk, decide_true,
    Bool.true_and]
  obtain ⟨n, hn⟩ : ∃ n, n = k / 8 := ⟨_, rfl⟩
  obtain ⟨t, ht⟩ : ∃ t, t = k % 8 := ⟨_, rfl⟩
  have hk' : k = 8 * n + t := by omega
  have high : ∀ (b : Byte) (m : Nat), 8 ≤ m → b.getLsbD m = false := fun b m h => BitVec.getLsbD_of_ge b m h
  rw [← hn, ← ht]
  subst hk'
  have hcases : n = 0 ∨ n = 1 ∨ n = 2 ∨ n = 3 ∨ n = 4 ∨ n = 5 ∨ n = 6 ∨ n = 7 := by omega
  rcases hcases with rfl | rfl | rfl | rfl | rfl | rfl | rfl | rfl <;>
  · simp (disch := omega) only [decide_eq_true, decide_eq_false, Bool.not_true, Bool.not_false, Bool.true_and,
      Bool.false_and, Bool.or_false, Bool.false_or, high, Bool.and_false]
    try simp (disch := omega)

theorem getD_slice (C : List Byte) (m n k : Nat) (hk : k < n - m) : (slice C m n).getD k 0 = C.getD (m + k) 0 := by
  simp [slice, List.getD, hk, List.getElem?_drop]

/-- Bit `k` of limb `m` is bit `k mod 8` of byte `8m + k div 8` of the record (R61, R83 (b)). -/
theorem limbNo_chunk_getLsbD (C : List Byte) (m k : Nat) (hm : m < 4) (hk : k < 64) :
    (limbNo (chunk C) m).getLsbD k = (C.getD (8 * m + k / 8) 0).getLsbD (k % 8) := by
  have hcases : m = 0 ∨ m = 1 ∨ m = 2 ∨ m = 3 := by omega
  rcases hcases with rfl | rfl | rfl | rfl <;>
    simp only [limbNo, chunk, le64_getLsbD _ _ hk] <;> rw [getD_slice _ _ _ _ (by omega)]

/-- The element of a record holds the limbs of the record (R90). -/
theorem feLimb_elementOf (C : List Byte) (m : Nat) : feLimb (elementOf C) m = limbNo (chunk C) m := by
  unfold feLimb limbNo
  split <;> rfl

/-- Bit `b` of limb `l` of a decoded record is a bit of one ROM byte (R40, R107). -/
theorem feLimb_decodeRecord_getLsbD (rom : Memory) (k l b : Nat) (hl : l < 4) (hb : b < 64) :
    (feLimb (decodeRecord rom k) l).getLsbD b = (rom.read (32 * k + 8 * l + b / 8)).getLsbD (b % 8) := by
  unfold decodeRecord
  rw [feLimb_elementOf, limbNo_chunk_getLsbD _ _ _ hl hb]
  have hlt : 8 * l + b / 8 < Config.recBytes := by unfold Config.recBytes; omega
  simp only [Memory.bytes, List.getD, List.getElem?_map, List.getElem?_range, hlt, Option.map_some, Option.getD_some]
  unfold Config.recBytes
  rw [← Nat.add_assoc]

end Sys2Proof.Machine
end

