-- ==== Sys2Proof/Laws/Memory.lean ====
section
/-! SUPPORT. Laws of the ROM and of the table: attaching an image gives its bytes back in canonical form, `MemRead` is
defined exactly inside the ROM, and the finished table holds exactly the decoded records. -/

namespace Sys2Proof.Machine

theorem Memory.mem_ofBytesAt {start : Nat} {bytes : List Byte} {c : Host.Cell}
    (h : c ∈ Memory.ofBytesAt start bytes) :
    start ≤ c.1 ∧ c.1 < start + bytes.length ∧ c.2 ≠ Memory.unlisted := by
  induction bytes generalizing start with
  | nil => simp [Memory.ofBytesAt] at h
  | cons b rest ih =>
    simp only [Memory.ofBytesAt] at h
    simp only [List.length_cons]
    split at h
    · have := ih h
      exact ⟨by omega, by omega, this.2.2⟩
    · rename_i hb
      rcases List.mem_cons.1 h with rfl | h
      · exact ⟨Nat.le_refl _, by simp, hb⟩
      · have := ih h
        exact ⟨by omega, by omega, this.2.2⟩

/-- Attaching an image gives the canonical form. -/
theorem Memory.wf_ofBytesAt (start : Nat) (bytes : List Byte) : Memory.wf (Memory.ofBytesAt start bytes) := by
  refine ⟨?_, fun c hc => (Memory.mem_ofBytesAt hc).2.2⟩
  induction bytes generalizing start with
  | nil => exact List.Pairwise.nil
  | cons b rest ih =>
    simp only [Memory.ofBytesAt]
    split
    · exact ih _
    · exact List.pairwise_cons.2 ⟨fun c hc => (Memory.mem_ofBytesAt hc).1, ih _⟩

/-- An attached image reads back byte for byte. -/
theorem Memory.read_ofBytesAt (start : Nat) (bytes : List Byte) (k : Nat) :
    Memory.read (Memory.ofBytesAt start bytes) (start + k) = bytes.getD k Memory.unlisted := by
  induction bytes generalizing start k with
  | nil => simp [Memory.ofBytesAt, Memory.read]
  | cons b rest ih =>
    cases k with
    | zero =>
      simp only [Memory.ofBytesAt, Nat.add_zero, List.getD_cons_zero]
      split
      · rename_i hb; subst hb
        have : findCell (Memory.ofBytesAt (start + 1) rest) start = none :=
          findCell_eq_none_of_lt fun c hc => (Memory.mem_ofBytesAt hc).1
        simp [Memory.read, this]
      · simp [Memory.read, findCell]
    | succ k =>
      have := ih (start + 1) k
      rw [show start + 1 + k = start + (k + 1) by omega] at this
      simp only [Memory.ofBytesAt, List.getD_cons_succ]
      split
      · exact this
      · rw [← this]
        simp only [Memory.read, findCell]
        rw [if_neg (by omega)]

@[simp] theorem Memory.length_bytes (m : Memory) (addr n : Nat) : (m.bytes addr n).length = n := by
  simp [Memory.bytes]

theorem Memory.getD_bytes (m : Memory) (addr n k : Nat) (h : k < n) : (m.bytes addr n).getD k 0 = m.read (addr + k) := by
  simp [Memory.bytes, List.getD, h]

/-- `MemRead` is defined exactly when the bytes lie inside the ROM, and gives them (R10). -/
theorem memRead_eq_some {p : Platform} {addr n : Nat} {C : List Byte} :
    memRead p addr n = some C ↔ ∃ len, p.romLen = some len ∧ addr + n ≤ len ∧ C = p.rom.bytes addr n := by
  unfold memRead
  cases p.romLen with
  | none => simp
  | some len =>
    by_cases h : addr + n ≤ len
    · simp [h, eq_comm]
    · simp [h]

/-- A platform has no resource-shape defect exactly when the ROM has the expected length (R100). -/
theorem defect_eq_none {p : Platform} : p.defect = none ↔ p.romLen = some p.romLenExpected := by
  unfold Platform.defect
  cases p.romLen with
  | none => simp
  | some len => by_cases h : len = p.romLenExpected <;> simp [h]

theorem defect_ne_noFault (p : Platform) : p.defect ≠ some .noFault := by
  unfold Platform.defect
  cases p.romLen with
  | none => simp
  | some len => by_cases h : len = p.romLenExpected <;> simp [h]

theorem findCell_map_range {α : Type} (f : Nat → α) (start n key : Nat) :
    findCell ((List.range' start n).map fun m => (m, f m)) key
      = if start ≤ key ∧ key < start + n then some (f key) else none := by
  induction n generalizing start with
  | zero =>
    rw [if_neg (by omega)]
    rfl
  | succ n ih =>
    rw [List.range'_succ, List.map_cons, findCell_cons, ih]
    by_cases h : start = key
    · subst h
      rw [if_pos rfl, if_pos (by omega)]
    · rw [if_neg h]
      by_cases h' : start + 1 ≤ key ∧ key < start + 1 + n
      · rw [if_pos h', if_pos (by omega)]
      · rw [if_neg h', if_neg (by omega)]

/-- The finished table holds `DecodeRecord(ROM, m)` for every `m < n` and nothing else (R107, R109). -/
theorem Table.get_filled (rom : Memory) (n m : Nat) :
    (Table.filled rom n).get m = if m < n then some (decodeRecord rom m) else none := by
  unfold Table.filled Table.get
  rw [List.range_eq_range', findCell_map_range]
  simp

theorem Table.wf_filled (rom : Memory) (n : Nat) : (Table.filled rom n).wf n := by
  unfold Table.filled
  refine ⟨List.pairwise_map.2 List.pairwise_lt_range, fun c hc => ?_⟩
  obtain ⟨m, hm, rfl⟩ := List.mem_map.1 hc
  exact List.mem_range.1 hm

/-- A table store: the element at its index, every other entry as before (R102). -/
theorem Table.get_set (t : Table) (k : Nat) (e : FE) (m : Nat) :
    (t.set k e).get m = if k = m then some e else t.get m := findCell_setCell t k e m

theorem Table.wf_set {t : Table} {n : Nat} (h : t.wf n) {k : Nat} (hk : k < n) (e : FE) : (t.set k e).wf n := by
  refine ⟨rising_setCell h.1 k e, fun c hc => ?_⟩
  rcases mem_setCell hc with rfl | hc
  · exact hk
  · exact h.2 c hc

theorem Table.full_iff (t : Table) (n : Nat) : t.full n = true ↔ ∀ m, m < n → (t.get m).isSome := by
  simp [Table.full]

end Sys2Proof.Machine
end

