-- ==== Sys2Proof/Laws/Invariants.lean ====
section
/-! SUPPORT. What the invariants of R109 give in each phase, and how a run of several steps is taken apart. -/

namespace Sys2Proof.Machine

variable {s t : State}

theorem LoaderInv.ofUnbuilt (h : LoaderInv s) (hp : s.phase = .unbuilt) : UnbuiltInv s := by
  simpa [PhaseInv, hp] using h.phase

theorem LoaderInv.ofBusy (h : LoaderInv s) (hp : s.phase = .busy) : BusyInv s := by
  simpa [PhaseInv, hp] using h.phase

theorem LoaderInv.ofReady (h : LoaderInv s) (hp : s.phase = .ready) : ReadyInv s := by
  simpa [PhaseInv, hp] using h.phase

theorem LoaderInv.ofFault (h : LoaderInv s) (hp : s.phase = .fault) : FaultInv s := by
  simpa [PhaseInv, hp] using h.phase

theorem romLenExpected_eq (p : Platform) : p.romLenExpected = 32 * p.nRec := Nat.mul_comm ..

theorem LoaderInv.nRec_le (h : LoaderInv s) : s.plat.nRec ≤ 960 := h.plat.1

/-- A run begins with a step (Host.Core.run). -/
theorem run_succ (n : Nat) (h : step s = .next t) : core.run (n + 1) s = core.run n t := by
  have key : ∀ (M : Host.Core) (u v : M.State), M.step u = .next v → M.run (n + 1) u = M.run n v := by
    intro M u v huv
    simp only [Host.Core.run, huv]
  exact key core s t h

end Sys2Proof.Machine
end

