-- ==== Sys2Proof/Laws/State.lean ====
section
/-! SUPPORT. One lemma per field per state update, so that no proof unfolds a record update. -/

namespace Sys2Proof.Machine

variable (s : State)

/-! ### `State.emit` -/

@[simp] theorem State.emit_plat (o : Output) : (s.emit o).plat = s.plat := rfl
@[simp] theorem State.emit_phase (o : Output) : (s.emit o).phase = s.phase := rfl
@[simp] theorem State.emit_fcode (o : Output) : (s.emit o).fcode = s.fcode := rfl
@[simp] theorem State.emit_i (o : Output) : (s.emit o).i = s.i := rfl
@[simp] theorem State.emit_j (o : Output) : (s.emit o).j = s.j := rfl
@[simp] theorem State.emit_table (o : Output) : (s.emit o).table = s.table := rfl
@[simp] theorem State.emit_pending (o : Output) : (s.emit o).pending = s.pending := rfl
@[simp] theorem State.emit_requester (o : Output) : (s.emit o).requester = s.requester := rfl
@[simp] theorem State.emit_out (o : Output) : (s.emit o).out = o := rfl
@[simp] theorem State.emit_schedule (o : Output) : (s.emit o).schedule = s.schedule := rfl
@[simp] theorem State.emit_draws (o : Output) : (s.emit o).draws = s.draws := rfl

/-! ### `State.answer` -/

@[simp] theorem State.answer_plat (st : Status) (d : RespData) : (s.answer st d).plat = s.plat := rfl
@[simp] theorem State.answer_phase (st : Status) (d : RespData) : (s.answer st d).phase = s.phase := rfl
@[simp] theorem State.answer_fcode (st : Status) (d : RespData) : (s.answer st d).fcode = s.fcode := rfl
@[simp] theorem State.answer_i (st : Status) (d : RespData) : (s.answer st d).i = s.i := rfl
@[simp] theorem State.answer_j (st : Status) (d : RespData) : (s.answer st d).j = s.j := rfl
@[simp] theorem State.answer_table (st : Status) (d : RespData) : (s.answer st d).table = s.table := rfl
@[simp] theorem State.answer_pending (st : Status) (d : RespData) : (s.answer st d).pending = s.pending := rfl
@[simp] theorem State.answer_requester (st : Status) (d : RespData) : (s.answer st d).requester = s.requester := rfl
@[simp] theorem State.answer_out (st : Status) (d : RespData) :
    (s.answer st d).out = .response { agent := s.requester, status := st, data := d } := rfl
@[simp] theorem State.answer_schedule (st : Status) (d : RespData) : (s.answer st d).schedule = s.schedule := rfl
@[simp] theorem State.answer_draws (st : Status) (d : RespData) : (s.answer st d).draws = s.draws := rfl

/-! ### `State.hold` -/

@[simp] theorem State.hold_plat (g : Gated) : (s.hold g).plat = s.plat := rfl
@[simp] theorem State.hold_phase (g : Gated) : (s.hold g).phase = s.phase := rfl
@[simp] theorem State.hold_fcode (g : Gated) : (s.hold g).fcode = s.fcode := rfl
@[simp] theorem State.hold_i (g : Gated) : (s.hold g).i = s.i := rfl
@[simp] theorem State.hold_j (g : Gated) : (s.hold g).j = s.j := rfl
@[simp] theorem State.hold_table (g : Gated) : (s.hold g).table = s.table := rfl
@[simp] theorem State.hold_pending (g : Gated) : (s.hold g).pending = setCell s.pending s.requester g := rfl
@[simp] theorem State.hold_requester (g : Gated) : (s.hold g).requester = s.requester := rfl
@[simp] theorem State.hold_out (g : Gated) : (s.hold g).out = .silent := rfl
@[simp] theorem State.hold_schedule (g : Gated) : (s.hold g).schedule = s.schedule := rfl
@[simp] theorem State.hold_draws (g : Gated) : (s.hold g).draws = s.draws := rfl

/-! ### `State.takeResourceShape` -/

@[simp] theorem State.takeResourceShape_plat (c : FCode) : (s.takeResourceShape c).plat = s.plat := rfl
@[simp] theorem State.takeResourceShape_phase (c : FCode) : (s.takeResourceShape c).phase = .fault := rfl
@[simp] theorem State.takeResourceShape_fcode (c : FCode) : (s.takeResourceShape c).fcode = c := rfl
@[simp] theorem State.takeResourceShape_i (c : FCode) : (s.takeResourceShape c).i = s.i := rfl
@[simp] theorem State.takeResourceShape_j (c : FCode) : (s.takeResourceShape c).j = s.j := rfl
@[simp] theorem State.takeResourceShape_table (c : FCode) : (s.takeResourceShape c).table = s.table := rfl
@[simp] theorem State.takeResourceShape_pending (c : FCode) : (s.takeResourceShape c).pending = s.pending := rfl
@[simp] theorem State.takeResourceShape_requester (c : FCode) : (s.takeResourceShape c).requester = s.requester := rfl
@[simp] theorem State.takeResourceShape_out (c : FCode) :
    (s.takeResourceShape c).out = .response { agent := s.requester, status := .errFault, data := .noData } := rfl
@[simp] theorem State.takeResourceShape_schedule (c : FCode) : (s.takeResourceShape c).schedule = s.schedule := rfl
@[simp] theorem State.takeResourceShape_draws (c : FCode) : (s.takeResourceShape c).draws = s.draws := rfl

/-! ### `State.raiseAgain` -/

@[simp] theorem State.raiseAgain_plat : s.raiseAgain.plat = s.plat := rfl
@[simp] theorem State.raiseAgain_phase : s.raiseAgain.phase = s.phase := rfl
@[simp] theorem State.raiseAgain_fcode : s.raiseAgain.fcode = s.fcode := rfl
@[simp] theorem State.raiseAgain_i : s.raiseAgain.i = s.i := rfl
@[simp] theorem State.raiseAgain_j : s.raiseAgain.j = s.j := rfl
@[simp] theorem State.raiseAgain_table : s.raiseAgain.table = s.table := rfl
@[simp] theorem State.raiseAgain_pending : s.raiseAgain.pending = s.pending := rfl
@[simp] theorem State.raiseAgain_requester : s.raiseAgain.requester = s.requester := rfl
@[simp] theorem State.raiseAgain_out :
    s.raiseAgain.out = .response { agent := s.requester, status := .errFault, data := .noData } := rfl
@[simp] theorem State.raiseAgain_schedule : s.raiseAgain.schedule = s.schedule := rfl
@[simp] theorem State.raiseAgain_draws : s.raiseAgain.draws = s.draws := rfl

/-! ### `State.beginBuild` -/

@[simp] theorem State.beginBuild_plat : s.beginBuild.plat = s.plat := rfl
@[simp] theorem State.beginBuild_phase : s.beginBuild.phase = .busy := rfl
@[simp] theorem State.beginBuild_fcode : s.beginBuild.fcode = s.fcode := rfl
@[simp] theorem State.beginBuild_i : s.beginBuild.i = 0 := rfl
@[simp] theorem State.beginBuild_j : s.beginBuild.j = 0 := rfl
@[simp] theorem State.beginBuild_table : s.beginBuild.table = s.table := rfl
@[simp] theorem State.beginBuild_pending : s.beginBuild.pending = s.pending := rfl
@[simp] theorem State.beginBuild_requester : s.beginBuild.requester = s.requester := rfl
@[simp] theorem State.beginBuild_out : s.beginBuild.out = s.out := rfl
@[simp] theorem State.beginBuild_schedule : s.beginBuild.schedule = s.schedule := rfl
@[simp] theorem State.beginBuild_draws : s.beginBuild.draws = s.draws := rfl

/-! ### `State.storeEntry` -/

@[simp] theorem State.storeEntry_plat (e : FE) : (s.storeEntry e).plat = s.plat := rfl
@[simp] theorem State.storeEntry_phase (e : FE) : (s.storeEntry e).phase = s.phase := rfl
@[simp] theorem State.storeEntry_fcode (e : FE) : (s.storeEntry e).fcode = s.fcode := rfl
@[simp] theorem State.storeEntry_i (e : FE) : (s.storeEntry e).i = s.i + BitVec.ofNat 15 Config.recBytes := rfl
@[simp] theorem State.storeEntry_j (e : FE) : (s.storeEntry e).j = s.j + 1 := rfl
@[simp] theorem State.storeEntry_table (e : FE) : (s.storeEntry e).table = s.table.set s.j.toNat e := rfl
@[simp] theorem State.storeEntry_pending (e : FE) : (s.storeEntry e).pending = s.pending := rfl
@[simp] theorem State.storeEntry_requester (e : FE) : (s.storeEntry e).requester = s.requester := rfl
@[simp] theorem State.storeEntry_out (e : FE) : (s.storeEntry e).out = .silent := rfl
@[simp] theorem State.storeEntry_schedule (e : FE) : (s.storeEntry e).schedule = s.schedule := rfl
@[simp] theorem State.storeEntry_draws (e : FE) : (s.storeEntry e).draws = s.draws := rfl

/-! ### `State.publish` -/

@[simp] theorem State.publish_plat : s.publish.plat = s.plat := rfl
@[simp] theorem State.publish_phase : s.publish.phase = .ready := rfl
@[simp] theorem State.publish_fcode : s.publish.fcode = s.fcode := rfl
@[simp] theorem State.publish_i : s.publish.i = s.i := rfl
@[simp] theorem State.publish_j : s.publish.j = s.j := rfl
@[simp] theorem State.publish_table : s.publish.table = s.table := rfl
@[simp] theorem State.publish_pending : s.publish.pending = s.pending := rfl
@[simp] theorem State.publish_requester : s.publish.requester = s.requester := rfl
@[simp] theorem State.publish_out : s.publish.out = .silent := rfl
@[simp] theorem State.publish_schedule : s.publish.schedule = s.schedule := rfl
@[simp] theorem State.publish_draws : s.publish.draws = s.draws := rfl

/-! ### `State.quiet` -/

@[simp] theorem State.quiet_plat : s.quiet.plat = s.plat := rfl
@[simp] theorem State.quiet_phase : s.quiet.phase = s.phase := rfl
@[simp] theorem State.quiet_fcode : s.quiet.fcode = s.fcode := rfl
@[simp] theorem State.quiet_i : s.quiet.i = s.i := rfl
@[simp] theorem State.quiet_j : s.quiet.j = s.j := rfl
@[simp] theorem State.quiet_table : s.quiet.table = s.table := rfl
@[simp] theorem State.quiet_pending : s.quiet.pending = s.pending := rfl
@[simp] theorem State.quiet_requester : s.quiet.requester = s.requester := rfl
@[simp] theorem State.quiet_out : s.quiet.out = .silent := rfl
@[simp] theorem State.quiet_schedule : s.quiet.schedule = s.schedule := rfl
@[simp] theorem State.quiet_draws : s.quiet.draws = s.draws := rfl

/-! ### `State.cleared` -/

@[simp] theorem State.cleared_plat : s.cleared.plat = s.plat := rfl
@[simp] theorem State.cleared_phase : s.cleared.phase = .unbuilt := rfl
@[simp] theorem State.cleared_fcode : s.cleared.fcode = .noFault := rfl
@[simp] theorem State.cleared_i : s.cleared.i = Config.freeI s.draws := rfl
@[simp] theorem State.cleared_j : s.cleared.j = Config.freeJ s.draws := rfl
@[simp] theorem State.cleared_table : s.cleared.table = [] := rfl
@[simp] theorem State.cleared_pending : s.cleared.pending = [] := rfl
@[simp] theorem State.cleared_requester : s.cleared.requester = s.requester := rfl
@[simp] theorem State.cleared_out : s.cleared.out = .silent := rfl
@[simp] theorem State.cleared_schedule : s.cleared.schedule = s.schedule := rfl
@[simp] theorem State.cleared_draws : s.cleared.draws = s.draws + 1 := rfl

/-! ### `State.prebuiltReady` -/

@[simp] theorem State.prebuiltReady_plat : s.prebuiltReady.plat = s.plat := rfl
@[simp] theorem State.prebuiltReady_phase : s.prebuiltReady.phase = .ready := rfl
@[simp] theorem State.prebuiltReady_fcode : s.prebuiltReady.fcode = .noFault := rfl
@[simp] theorem State.prebuiltReady_i : s.prebuiltReady.i = BitVec.ofNat 15 s.plat.romLenExpected := rfl
@[simp] theorem State.prebuiltReady_j : s.prebuiltReady.j = BitVec.ofNat 10 s.plat.nRec := rfl
@[simp] theorem State.prebuiltReady_table : s.prebuiltReady.table = Table.filled s.plat.rom s.plat.nRec := rfl
@[simp] theorem State.prebuiltReady_pending : s.prebuiltReady.pending = [] := rfl
@[simp] theorem State.prebuiltReady_requester : s.prebuiltReady.requester = s.requester := rfl
@[simp] theorem State.prebuiltReady_out : s.prebuiltReady.out = .silent := rfl
@[simp] theorem State.prebuiltReady_schedule : s.prebuiltReady.schedule = s.schedule := rfl
@[simp] theorem State.prebuiltReady_draws : s.prebuiltReady.draws = s.draws := rfl

/-! ### `State.onBehalfOf` -/

@[simp] theorem State.onBehalfOf_plat (a : AgentId) : (s.onBehalfOf a).plat = s.plat := rfl
@[simp] theorem State.onBehalfOf_phase (a : AgentId) : (s.onBehalfOf a).phase = s.phase := rfl
@[simp] theorem State.onBehalfOf_fcode (a : AgentId) : (s.onBehalfOf a).fcode = s.fcode := rfl
@[simp] theorem State.onBehalfOf_i (a : AgentId) : (s.onBehalfOf a).i = s.i := rfl
@[simp] theorem State.onBehalfOf_j (a : AgentId) : (s.onBehalfOf a).j = s.j := rfl
@[simp] theorem State.onBehalfOf_table (a : AgentId) : (s.onBehalfOf a).table = s.table := rfl
@[simp] theorem State.onBehalfOf_pending (a : AgentId) : (s.onBehalfOf a).pending = s.pending := rfl
@[simp] theorem State.onBehalfOf_requester (a : AgentId) : (s.onBehalfOf a).requester = a := rfl
@[simp] theorem State.onBehalfOf_out (a : AgentId) : (s.onBehalfOf a).out = s.out := rfl
@[simp] theorem State.onBehalfOf_schedule (a : AgentId) : (s.onBehalfOf a).schedule = s.schedule := rfl
@[simp] theorem State.onBehalfOf_draws (a : AgentId) : (s.onBehalfOf a).draws = s.draws := rfl

/-! ### `State.takeHeld` -/

@[simp] theorem State.takeHeld_plat (a : AgentId) : (s.takeHeld a).plat = s.plat := rfl
@[simp] theorem State.takeHeld_phase (a : AgentId) : (s.takeHeld a).phase = s.phase := rfl
@[simp] theorem State.takeHeld_fcode (a : AgentId) : (s.takeHeld a).fcode = s.fcode := rfl
@[simp] theorem State.takeHeld_i (a : AgentId) : (s.takeHeld a).i = s.i := rfl
@[simp] theorem State.takeHeld_j (a : AgentId) : (s.takeHeld a).j = s.j := rfl
@[simp] theorem State.takeHeld_table (a : AgentId) : (s.takeHeld a).table = s.table := rfl
@[simp] theorem State.takeHeld_pending (a : AgentId) : (s.takeHeld a).pending = dropCell s.pending a := rfl
@[simp] theorem State.takeHeld_requester (a : AgentId) : (s.takeHeld a).requester = a := rfl
@[simp] theorem State.takeHeld_out (a : AgentId) : (s.takeHeld a).out = s.out := rfl
@[simp] theorem State.takeHeld_schedule (a : AgentId) : (s.takeHeld a).schedule = s.schedule := rfl
@[simp] theorem State.takeHeld_draws (a : AgentId) : (s.takeHeld a).draws = s.draws := rfl

end Sys2Proof.Machine
end

