-- ==== Sys2Proof/Laws/Ops.lean ====
section
/-! SUPPORT. What each shared operation can do, said once: one equation per arm, and one inversion lemma each. -/

namespace Sys2Proof.Machine

variable {s t : State}

/-! ### The selector (R69) -/

theorem atEnd_iff : s.atEnd = true ↔ s.plat.romLen = some s.i.toNat := by simp [State.atEnd]

/-- The selector is 0b010 exactly in BUSY before the end of the ROM. -/
theorem sel_eq_step : s.sel = 0b010#3 ↔ s.phase = .busy ∧ s.plat.romLen ≠ some s.i.toNat := by
  rw [ne_eq, ← atEnd_iff]
  unfold State.sel
  cases s.phase <;> cases s.atEnd <;> simp [Phase.code]

/-- The selector is 0b011 exactly in BUSY at the end of the ROM. -/
theorem sel_eq_finish : s.sel = 0b011#3 ↔ s.phase = .busy ∧ s.plat.romLen = some s.i.toNat := by
  rw [← atEnd_iff]
  unfold State.sel
  cases s.phase <;> cases s.atEnd <;> simp [Phase.code]

/-! ### Taking ResourceShape, starting the build (R100, R138) -/

theorem firstUse_of_defect {c : FCode} (h : s.plat.defect = some c) (f : State → State) :
    s.firstUse f = s.takeResourceShape c := by simp [State.firstUse, h]

theorem firstUse_of_none (h : s.plat.defect = none) (f : State → State) : s.firstUse f = f s.beginBuild := by
  simp [State.firstUse, h]

/-! ### Gating (R104, R126, R137) -/

theorem gated_of_outOfRange {g : Gated} (h : gateInRange g s.plat.nRec = false) (f : State → Result) :
    gated g f s = .next (s.answer .errIndex .noData) := by simp [gated, h]

theorem gated_of_ready {g : Gated} (hr : gateInRange g s.plat.nRec = true) (hp : s.phase = .ready)
    (f : State → Result) : gated g f s = f s := by simp [gated, hr, hp]

theorem gated_of_unbuilt {g : Gated} (hr : gateInRange g s.plat.nRec = true) (hp : s.phase = .unbuilt)
    (f : State → Result) : gated g f s = .next (s.firstUse fun t => t.hold g) := by simp [gated, hr, hp]

theorem gated_of_busy {g : Gated} (hr : gateInRange g s.plat.nRec = true) (hp : s.phase = .busy)
    (f : State → Result) : gated g f s = .next (s.hold g) := by simp [gated, hr, hp]

theorem gated_of_fault {g : Gated} (hr : gateInRange g s.plat.nRec = true) (hp : s.phase = .fault)
    (f : State → Result) : gated g f s = .next s.raiseAgain := by simp [gated, hr, hp]

/-- Everything the gating can do. -/
theorem gated_next {g : Gated} {f : State → Result} (h : gated g f s = .next t) :
    (gateInRange g s.plat.nRec = false ∧ t = s.answer .errIndex .noData) ∨
    (gateInRange g s.plat.nRec = true ∧ s.phase = .ready ∧ f s = .next t) ∨
    (gateInRange g s.plat.nRec = true ∧ s.phase = .unbuilt ∧ t = s.firstUse fun u => u.hold g) ∨
    (gateInRange g s.plat.nRec = true ∧ s.phase = .busy ∧ t = s.hold g) ∨
    (gateInRange g s.plat.nRec = true ∧ s.phase = .fault ∧ t = s.raiseAgain) := by
  cases hr : gateInRange g s.plat.nRec with
  | false =>
    rw [gated_of_outOfRange hr] at h
    exact .inl ⟨rfl, by injection h with h; exact h.symm⟩
  | true =>
    refine .inr ?_
    cases hp : s.phase with
    | ready => exact .inl ⟨rfl, rfl, gated_of_ready hr hp f ▸ h⟩
    | unbuilt =>
      rw [gated_of_unbuilt hr hp] at h
      exact .inr (.inl ⟨rfl, rfl, by injection h with h; exact h.symm⟩)
    | busy =>
      rw [gated_of_busy hr hp] at h
      exact .inr (.inr (.inl ⟨rfl, rfl, by injection h with h; exact h.symm⟩))
    | fault =>
      rw [gated_of_fault hr hp] at h
      exact .inr (.inr (.inr ⟨rfl, rfl, by injection h with h; exact h.symm⟩))

/-! ### Test commands and table entries (R70 (d), R29) -/

theorem testOnly_of_true (h : s.plat.testEn = true) (f : State → Result) : testOnly f s = f s := by
  simp [testOnly, h]

theorem testOnly_of_false (h : s.plat.testEn = false) (f : State → Result) :
    testOnly f s = .next (s.answer .errIllegal .noData) := by simp [testOnly, h]

theorem fromEntry_of_some {idx : Idx} {e : FE} (h : s.table.get idx.toNat = some e) (f : FE → RespData) :
    fromEntry idx f s = .next (s.answer .ok (f e)) := by simp [fromEntry, h]

theorem fromEntry_of_none {idx : Idx} (h : s.table.get idx.toNat = none) (f : FE → RespData) :
    fromEntry idx f s = .fault .unwrittenEntry := by simp [fromEntry, h]

theorem fromEntry_next {idx : Idx} {f : FE → RespData} (h : fromEntry idx f s = .next t) :
    ∃ e, s.table.get idx.toNat = some e ∧ t = s.answer .ok (f e) := by
  cases he : s.table.get idx.toNat with
  | none => rw [fromEntry_of_none he] at h; cases h
  | some e =>
    rw [fromEntry_of_some he] at h
    exact ⟨e, rfl, by injection h with h; exact h.symm⟩

theorem datapathResult_next {bytes : List Byte} {n : Nat} {f : List Byte → Output}
    (h : datapathResult bytes n f s = .next t) : bytes.length = n ∧ t = s.emit (f bytes) := by
  unfold datapathResult at h
  split at h
  · rename_i hlen
    exact ⟨hlen, by injection h with h; exact h.symm⟩
  · cases h

/-! ### The loader's steps (R102, R103) -/

theorem execStep_of_selected {C : List Byte} (hsel : s.sel = 0b010#3)
    (hread : memRead s.plat s.i.toNat Config.recBytes = some C) (hj : s.j.toNat < s.plat.nRec) :
    execStep s = .next (s.storeEntry (elementOf C)) := by simp [execStep, hsel, hread, hj]

theorem execStep_next (h : execStep s = .next t) :
    s.sel = 0b010#3 ∧ s.j.toNat < s.plat.nRec ∧
      ∃ C, memRead s.plat s.i.toNat Config.recBytes = some C ∧ t = s.storeEntry (elementOf C) := by
  unfold execStep at h
  split at h
  · cases h
  · rename_i hsel
    split at h
    · cases h
    · rename_i C hC
      split at h
      · rename_i hj
        exact ⟨not_not.1 hsel, hj, C, hC, by injection h with h; exact h.symm⟩
      · cases h

theorem execFinish_of_selected (hsel : s.sel = 0b011#3) : execFinish s = .next s.publish := by simp [execFinish, hsel]

theorem execFinish_next (h : execFinish s = .next t) : s.sel = 0b011#3 ∧ t = s.publish := by
  unfold execFinish at h
  split at h
  · cases h
  · rename_i hsel
    exact ⟨not_not.1 hsel, by injection h with h; exact h.symm⟩

end Sys2Proof.Machine
end

