-- ==== Sys2Proof/Laws/PerInstr.lean ====
section
/-! SUPPORT. The per-instruction family RoundTrip: decoding the encoding of a well-formed operation gives it back, one
lemma per constructor. -/

namespace Sys2Proof

/-- The index field of a command word is the index it was built with (R67). -/
theorem idxField_cmdWord (op : BitVec 4) (idx : Idx) : idxField (cmdWord op idx) = idx := by
  unfold idxField cmdWord
  apply BitVec.eq_of_getLsbD_eq
  intro k hk
  rw [BitVec.getLsbD_extractLsb', BitVec.getLsbD_append]
  simp [hk]

/-- Masking the index field leaves `op` and `rsv` (R67). -/
theorem cmdWord_and_high (op : BitVec 4) (idx : Idx) : cmdWord op idx &&& 0xFC00#16 = cmdWord op 0#10 := by
  have hmask : (0xFC00#16 : CmdWord) = (0b1111#4 ++ 0b11#2 ++ 0#10 : BitVec 16) := by decide
  unfold cmdWord
  rw [hmask, BitVec.and_append, BitVec.and_append, BitVec.and_zero]
  congr 2
  exact BitVec.and_allOnes

/-- A row whose mask is all ones selects its pattern alone (R67). -/
theorem selects_full (p w : CmdWord) (op : CmdOp) :
    CmdRow.selects { pattern := p, mask := 0xFFFF#16, op := op } w = (w == p) := by
  have : w &&& 0xFFFF#16 = w := BitVec.and_allOnes
  simp only [CmdRow.selects, this]

/-- A row with an index operand selects by `op` and `rsv` (R67). -/
theorem selects_indexed (p : CmdWord) (op : CmdOp) (code : BitVec 4) (idx : Idx) :
    CmdRow.selects { pattern := p, mask := 0xFC00#16, op := op } (cmdWord code idx) = (cmdWord code 0#10 == p) := by
  simp only [CmdRow.selects, cmdWord_and_high]

/-- Words with different `op` differ (R67). -/
theorem cmdWord_beq_false {code : BitVec 4} {p : CmdWord} (idx : Idx) (h : cmdWord code 0#10 ≠ p &&& 0xFC00#16) :
    (cmdWord code idx == p) = false := by
  rw [beq_eq_false_iff_ne]
  rintro rfl
  exact h (cmdWord_and_high code idx).symm

end Sys2Proof

namespace Sys2Proof.Laws.RoundTrip

/-- Decoding the encoding gives the operation back. -/
def Statement (i : Instr) : Prop := WellFormed i → decode (encode i) = .ok i

theorem le64 (bytes : List Byte) : Statement (.le64 bytes) := by
  intro h
  have hlen : bytes.length = 8 := by simpa [WellFormed, Instr.wf] using h
  have hlt := leNat_lt bytes
  have hback := leBytes_leNat bytes
  rw [hlen] at hlt hback
  simp only [encode, decode, decodeDatapath, BitVec.toNat_ofNat]
  rw [Nat.mod_eq_of_lt (by simpa using hlt), hback]

theorem chunk (bytes : List Byte) : Statement (.chunk bytes) := by
  intro h
  have hlen : bytes.length = 32 := by simpa [WellFormed, Instr.wf] using h
  have hlt := leNat_lt bytes
  have hback := leBytes_leNat bytes
  rw [hlen] at hlt hback
  simp only [encode, decode, decodeDatapath, BitVec.toNat_ofNat]
  rw [Nat.mod_eq_of_lt (by simpa using hlt), hback]

theorem fromraw (a b c d : Limb) : Statement (.fromraw a b c d) := by
  intro _
  simp only [encode, decode, decodeDatapath]
  congr 2 <;> apply BitVec.eq_of_getLsbD_eq <;> intro k hk <;> simp only [BitVec.getLsbD_extractLsb', hk, decide_true,
    Bool.true_and, BitVec.getLsbD_append]
  · simp [hk]
  · rw [if_neg (by omega), if_pos (by omega)]
    exact congrArg _ (by omega)
  · rw [if_neg (by omega), if_neg (by omega), if_pos (by omega)]
    exact congrArg _ (by omega)
  · rw [if_neg (by omega), if_neg (by omega), if_neg (by omega)]
    exact congrArg _ (by omega)

theorem init : Statement .init := by intro _; decide

theorem read (idx : Idx) : Statement (.read idx) := by
  intro _
  have hneg : ∀ p ∈ [0x1000#16, 0x4000#16], (cmdWord 0x2#4 idx == p) = false := by
    intro p hp
    refine cmdWord_beq_false idx ?_
    simp only [List.mem_cons, List.not_mem_nil, or_false] at hp
    rcases hp with rfl | rfl <;> decide
  have hrow : cmdRows.find? (fun r => r.selects (cmdWord 0x2#4 idx)) = some { pattern := 0x2000#16, mask := 0xFC00#16, op := .read } := by
    simp +decide only [cmdRows, List.find?, selects_full, selects_indexed, hneg 0x1000#16 (by decide), hneg 0x4000#16 (by decide)]
  show decodeCommand (cmdWord 0x2#4 idx) = _
  simp only [decodeCommand, hrow, CmdOp.build, idxField_cmdWord]

theorem step : Statement .step := by intro _; decide

theorem finish : Statement .finish := by intro _; decide

theorem chklen : Statement .chklen := by intro _; decide

theorem chknz (idx : Idx) : Statement (.chknz idx) := by
  intro _
  have hneg : ∀ p ∈ [0x1000#16, 0x4000#16], (cmdWord 0x5#4 idx == p) = false := by
    intro p hp
    refine cmdWord_beq_false idx ?_
    simp only [List.mem_cons, List.not_mem_nil, or_false] at hp
    rcases hp with rfl | rfl <;> decide
  have hrow : cmdRows.find? (fun r => r.selects (cmdWord 0x5#4 idx)) = some { pattern := 0x5000#16, mask := 0xFC00#16, op := .chknz } := by
    simp +decide only [cmdRows, List.find?, selects_full, selects_indexed, hneg 0x1000#16 (by decide), hneg 0x4000#16 (by decide)]
  show decodeCommand (cmdWord 0x5#4 idx) = _
  simp only [decodeCommand, hrow, CmdOp.build, idxField_cmdWord]

theorem chkrt (idx : Idx) : Statement (.chkrt idx) := by
  intro _
  have hneg : ∀ p ∈ [0x1000#16, 0x4000#16], (cmdWord 0x6#4 idx == p) = false := by
    intro p hp
    refine cmdWord_beq_false idx ?_
    simp only [List.mem_cons, List.not_mem_nil, or_false] at hp
    rcases hp with rfl | rfl <;> decide
  have hrow : cmdRows.find? (fun r => r.selects (cmdWord 0x6#4 idx)) = some { pattern := 0x6000#16, mask := 0xFC00#16, op := .chkrt } := by
    simp +decide only [cmdRows, List.find?, selects_full, selects_indexed, hneg 0x1000#16 (by decide), hneg 0x4000#16 (by decide)]
  show decodeCommand (cmdWord 0x6#4 idx) = _
  simp only [decodeCommand, hrow, CmdOp.build, idxField_cmdWord]

end Sys2Proof.Laws.RoundTrip
end

