-- ==== Sys2Proof/Laws/Pseudo.lean ====
section
/-! SUPPORT. What the pseudo-operations do, one step at a time, and a pass of checks that all leave one state. -/

namespace Sys2Proof.Machine

variable {s t u : State}

theorem loaderRun_of_not_enabled (n : Nat) (h : s.loaderEnabled = false) : loaderRun n s = .next s := by
  cases n with
  | zero => rfl
  | succ n => simp [loaderRun, h]

theorem loaderRun_of_next (n : Nat) (h : s.loaderEnabled = true) (hm : loaderMove s = .next t) :
    loaderRun (n + 1) s = loaderRun n t := by simp [loaderRun, h, hm]

theorem loaderMove_of_step (h : s.sel = 0b010#3) : loaderMove s = exec .step s := by
  simp [loaderMove, decodeSequencer, h]

theorem loaderMove_of_finish (h : s.sel = 0b011#3) : loaderMove s = exec .finish s := by
  simp [loaderMove, decodeSequencer, h]

theorem load_of_next (h : exec .init s = .next t) : load s = loaderRun (t.plat.nRec + 1) t := by simp [load, h]

theorem answered_of_answer {g : Gated} (h : exec g.toInstr s = .next t) (hw : t.waits t.requester = false) :
    answered g s = .next t := by simp [answered, h, hw]

theorem answered_of_hold {g : Gated} (h : exec g.toInstr s = .next t) (hw : t.waits t.requester = true)
    (hr : loaderRun (t.plat.nRec + 1) t = .next u) : answered g s = poll t.requester u := by
  simp [answered, h, hw, hr]

theorem runChecks_cons {g : Gated} {rest : List Gated} {failing : Option Gated} (h : answered g s = .next t)
    (hr : runChecks rest t = .next (u, failing)) :
    runChecks (g :: rest) s = .next (u, if t.passed then failing else some g) := by simp [runChecks, h, hr]

/-- A pass of checks that change nothing but what is delivered names the first that fails. -/
theorem runChecks_find {checks : List Gated} {delivers : Gated → Output} {fails : Gated → Bool}
    (ha : ∀ g ∈ checks, ∀ o, answered g (s.emit o) = .next (s.emit (delivers g)))
    (hf : ∀ g ∈ checks, (s.emit (delivers g)).passed = !fails g) (o : Output) :
    ∃ o', runChecks checks (s.emit o) = .next (s.emit o', checks.find? fails) := by
  induction checks generalizing o with
  | nil => exact ⟨o, rfl⟩
  | cons g rest ih =>
    obtain ⟨o', hr⟩ := ih (fun g hg => ha g (List.mem_cons_of_mem _ hg)) (fun g hg => hf g (List.mem_cons_of_mem _ hg))
      (delivers g)
    refine ⟨o', (runChecks_cons (ha g List.mem_cons_self o) hr).trans ?_⟩
    rw [hf g List.mem_cons_self, List.find?_cons]
    cases fails g <;> rfl

end Sys2Proof.Machine
end

