-- ==== Sys2Proof/Laws/Step.lean ====
section
/-! SUPPORT. Inversion: everything an operation, and a step of the whole block, can do. Every invariant and every
frame follows from these without unfolding `exec` or `step`. -/

namespace Sys2Proof.Machine

/-- Everything `exec i s` can do when it answers a next state. -/
inductive Effect (i : Instr) (s : State) : State → Prop where
  /-- Something is delivered and nothing else happens; the answer of a check is delivered only in READY, and no element
  of the table. -/
  | delivered (o : Output)
      (h : ∀ a st d, o = .response { agent := a, status := st, data := d } →
        a = s.requester ∧ (d = .noData ∨ (s.phase = .ready ∧ ∃ b, d = .check b))) : Effect i s (s.emit o)
  /-- READ answers with the entry of its index. -/
  | readAnswer (idx : Idx) (e : FE) (hi : i = .read idx) (hr : idx.toNat < s.plat.nRec) (hp : s.phase = .ready)
      (he : s.table.get idx.toNat = some e) : Effect i s (s.answer .ok (.element e))
  /-- The command is held in BUSY. -/
  | held (g : Gated) (hi : i = g.toInstr) (hp : s.phase = .busy) : Effect i s (s.hold g)
  /-- The first use finds the resource-shape defect. -/
  | faulted (c : FCode) (hp : s.phase = .unbuilt) (hd : s.plat.defect = some c) : Effect i s (s.takeResourceShape c)
  /-- INIT begins the build. -/
  | begun (hp : s.phase = .unbuilt) (hd : s.plat.defect = none) : Effect i s (s.beginBuild.answer .ok .noData)
  /-- A gated command begins the build and is held. -/
  | begunHeld (g : Gated) (hi : i = g.toInstr) (hp : s.phase = .unbuilt) (hd : s.plat.defect = none) :
      Effect i s (s.beginBuild.hold g)
  /-- STEP stores one element. -/
  | stored (C : List Byte) (hi : i = .step) (hsel : s.sel = 0b010#3) (hj : s.j.toNat < s.plat.nRec)
      (hC : memRead s.plat s.i.toNat Config.recBytes = some C) : Effect i s (s.storeEntry (elementOf C))
  /-- FINISH publishes the table. -/
  | published (hi : i = .finish) (hsel : s.sel = 0b011#3) : Effect i s s.publish

theorem answer_delivered (i : Instr) (s : State) (st : Status) : Effect i s (s.answer st .noData) :=
  .delivered _ fun _ _ _ h => by
    injection h with h
    injection h with ha _ hd
    exact ⟨ha.symm, .inl hd.symm⟩

theorem check_delivered (i : Instr) {s : State} (hp : s.phase = .ready) (b : Bool) :
    Effect i s (s.answer .ok (.check b)) :=
  .delivered _ fun _ _ _ h => by
    injection h with h
    injection h with ha _ hd
    exact ⟨ha.symm, .inr ⟨hp, b, hd.symm⟩⟩

theorem firstUse_effect {i : Instr} {s : State} {g : Gated} (hi : i = g.toInstr) (hp : s.phase = .unbuilt) :
    Effect i s (s.firstUse fun u => u.hold g) := by
  cases hd : s.plat.defect with
  | some c => rw [firstUse_of_defect hd]; exact .faulted c hp hd
  | none => rw [firstUse_of_none hd]; exact .begunHeld g hi hp hd

/-- A gated command does what its READY arm does, or nothing but answer, hold, or make the first use. -/
theorem gated_effect {i : Instr} {s t : State} {g : Gated} {f : State → Result} (hi : i = g.toInstr)
    (h : gated g f s = .next t)
    (hready : gateInRange g s.plat.nRec = true → s.phase = .ready → f s = .next t → Effect i s t) : Effect i s t := by
  rcases gated_next h with ⟨-, rfl⟩ | ⟨hr, hp, hf⟩ | ⟨-, hp, rfl⟩ | ⟨-, hp, rfl⟩ | ⟨-, -, rfl⟩
  · exact answer_delivered ..
  · exact hready hr hp hf
  · exact firstUse_effect hi hp
  · exact .held g hi hp
  · exact answer_delivered ..

theorem testOnly_effect {i : Instr} {s t : State} {f : State → Result} (h : testOnly f s = .next t)
    (hf : f s = .next t → Effect i s t) : Effect i s t := by
  cases hen : s.plat.testEn with
  | true => exact hf (testOnly_of_true hen f ▸ h)
  | false =>
    rw [testOnly_of_false hen] at h
    injection h with h
    exact h ▸ answer_delivered ..

/-- The inversion lemma of `exec`. -/
theorem exec_next {i : Instr} {s t : State} (h : exec i s = .next t) : Effect i s t := by
  cases i with
  | le64 bytes =>
    obtain ⟨-, rfl⟩ := datapathResult_next (show datapathResult bytes 8 (fun B => .limb (le64 B)) s = .next t from h)
    exact .delivered _ fun _ _ _ h => by cases h
  | chunk bytes =>
    obtain ⟨-, rfl⟩ := datapathResult_next (show datapathResult bytes 32 (fun C => .limbs (chunk C)) s = .next t from h)
    exact .delivered _ fun _ _ _ h => by cases h
  | fromraw a b c d =>
    simp only [exec, execFromraw] at h
    injection h with h
    exact h ▸ .delivered _ fun _ _ _ h => by cases h
  | init =>
    simp only [exec, execInit] at h
    cases hp : s.phase with
    | unbuilt =>
      simp only [hp] at h
      injection h with h
      subst h
      cases hd : s.plat.defect with
      | some c => rw [firstUse_of_defect hd]; exact .faulted c hp hd
      | none => rw [firstUse_of_none hd]; exact .begun hp hd
    | busy => simp only [hp] at h; injection h with h; exact h ▸ answer_delivered ..
    | ready => simp only [hp] at h; injection h with h; exact h ▸ answer_delivered ..
    | fault => simp only [hp] at h; injection h with h; exact h ▸ answer_delivered ..
  | read idx =>
    refine gated_effect (g := .read idx) rfl h fun hr hp hf => ?_
    obtain ⟨e, he, rfl⟩ := fromEntry_next hf
    exact .readAnswer idx e rfl (by simpa [gateInRange] using hr) hp he
  | step =>
    obtain ⟨hsel, hj, C, hC, rfl⟩ := execStep_next h
    exact .stored C rfl hsel hj hC
  | finish =>
    obtain ⟨hsel, rfl⟩ := execFinish_next h
    exact .published rfl hsel
  | chklen =>
    refine testOnly_effect h fun h => gated_effect (g := .chklen) rfl h fun _ hp hf => ?_
    injection hf with hf
    exact hf ▸ check_delivered _ hp _
  | chknz idx =>
    refine testOnly_effect h fun h => gated_effect (g := .chknz idx) rfl h fun _ hp hf => ?_
    obtain ⟨e, -, rfl⟩ := fromEntry_next hf
    exact check_delivered _ hp _
  | chkrt idx =>
    refine testOnly_effect h fun h => gated_effect (g := .chkrt idx) rfl h fun _ hp hf => ?_
    obtain ⟨e, -, rfl⟩ := fromEntry_next hf
    exact check_delivered _ hp _

/-- The state a scheduled move starts from: its event is taken off the schedule. -/
def State.advanced (s : State) : State := { s with schedule := s.schedule.tail }

/-- Everything a step can do when it answers a next state. -/
inductive StepEffect (s : State) : State → Prop where
  /-- The host's RESET (R150). -/
  | reset (h : s.schedule.head? = some .reset) : StepEffect s s.advanced.takeReset
  /-- A move that is not enabled, or quiescence. -/
  | idle : StepEffect s s.advanced.quiet
  /-- An illegal command word (R134). -/
  | illegal (a : AgentId) : StepEffect s ((s.advanced.onBehalfOf a).answer .errIllegal .noData)
  /-- A loader step. -/
  | loader (i : Instr) (t : State) (hi : decodeSequencer s.sel = .ok i) (h : exec i s.advanced = .next t) :
      StepEffect s t
  /-- A datapath evaluation. -/
  | datapath (d : Datapath) (t : State) (h : exec (decodeDatapath d) s.advanced = .next t) : StepEffect s t
  /-- A command an agent issues. -/
  | command (a : AgentId) (w : CmdWord) (i : Instr) (t : State) (hs : s.schedule.head? = some (.command a w))
      (hw : s.waits a = false) (hi : decodeCommand w = .ok i)
      (h : exec i (s.advanced.onBehalfOf a) = .next t) : StepEffect s t
  /-- A held command that is lifted. -/
  | lifted (a : AgentId) (g : Gated) (t : State) (hg : findCell s.pending a = some g) (hl : s.lifted = true)
      (h : exec g.toInstr (s.advanced.takeHeld a) = .next t) :
      StepEffect s t

theorem loaderMove_next {s t : State} (h : loaderMove s.advanced = .next t) : StepEffect s t := by
  unfold loaderMove at h
  split at h
  · rename_i i hi
    exact .loader i t hi h
  · injection h with h
    exact h ▸ .idle

theorem poll_next {s t : State} {a : AgentId} (h : poll a s.advanced = .next t) : StepEffect s t := by
  unfold poll at h
  split at h
  · injection h with h
    exact h ▸ .idle
  · rename_i g hg
    split at h
    · rename_i hl
      exact .lifted a g t hg hl h
    · injection h with h
      exact h ▸ .idle

theorem issue_next {s t : State} {a : AgentId} {w : CmdWord} (hs : s.schedule.head? = some (.command a w))
    (h : issue a w s.advanced = .next t) : StepEffect s t := by
  unfold issue at h
  split at h
  · injection h with h
    exact h ▸ .idle
  · rename_i hw
    split at h
    · rename_i i hi
      exact .command a w i t hs (Bool.eq_false_iff.2 hw) hi h
    · simp only [illegalCommand] at h
      injection h with h
      exact h ▸ .illegal a

/-- The inversion lemma of `step`. -/
theorem step_next {s t : State} (h : step s = .next t) : StepEffect s t := by
  unfold step at h
  split at h
  · rename_i hs
    have hadv : s = s.advanced := by cases s; simp_all [State.advanced]
    rw [hadv] at h
    unfold unscheduledMove at h
    split at h
    · exact loaderMove_next h
    · split at h
      · injection h with h
        exact h ▸ .idle
      · exact poll_next h
  · rename_i e rest hs
    have hadv : { s with schedule := rest } = s.advanced := by simp [State.advanced, hs]
    rw [hadv] at h
    cases e with
    | loader => exact loaderMove_next h
    | command a w => exact issue_next (by rw [hs]; rfl) h
    | poll a => exact poll_next h
    | evaluate d => exact .datapath d t h
    | reset =>
      simp only [perform] at h
      injection h with h
      exact h ▸ .reset (by rw [hs]; rfl)

end Sys2Proof.Machine
end

