-- ==== Sys2Proof/Machine/Text.lean ====
section
/-! DEFINITION. The textual form of operations and results (R73, R74; D23). -/

namespace Sys2Proof.Machine

/-- An operation as R73 writes it, `idx` in decimal. The datapath functions have no line of their own in R73; their
mnemonics stand for them. -/
def asmText : Instr → String
  | .le64 _ => "LE64"
  | .chunk _ => "CHUNK"
  | .fromraw _ _ _ _ => "FROMRAW"
  | .init => "INIT"
  | .read idx => "READ " ++ toString idx.toNat
  | .step => "STEP"
  | .finish => "FINISH"
  | .chklen => "CHKLEN"
  | .chknz idx => "CHKNZ " ++ toString idx.toNat
  | .chkrt idx => "CHKRT " ++ toString idx.toNat

/-- A response as R74 writes it, without the arrow. ERR_FAULT is named by the cause `fcode` shows (R133). -/
def resultText (fcode : FCode) (r : Response) : String :=
  match r.status with
  | .ok =>
    match r.data with
    | .noData => "OK"
    | .element e =>
      "FE(" ++ toString e.l0.toNat ++ ", " ++ toString e.l1.toNat ++ ", " ++ toString e.l2.toNat ++ ", "
        ++ toString e.l3.toNat ++ ")"
    | .check pass => if pass then "PASS" else "FAIL"
  | .errFault =>
    match fcode with
    | .noFault => "ResourceShape"
    | .resLength => "ResourceShape(RES_LENGTH)"
    | .resMissing => "ResourceShape(RES_MISSING)"
  | .errIllegal => "IllegalCommand"
  | .errIndex => "IndexRange"

end Sys2Proof.Machine
end

