-- ==== Sys2Proof/Tests/Slice0.lean ====
section
/-! SUPPORT. The model's own tests. Every expected value is taken from 95_test_vectors.md (the vector is named) or from
the encodings of 30_encoding.md written out bit by bit. After them, one witness for the hypotheses of each statement. -/

namespace Sys2Proof.Tests

open Sys2Proof Sys2Proof.Machine

/-! ### Small blocks: the two-record instance of S5 -/

/-- The bytes of S5: record 0 is `01` and 31 bytes `00`, record 1 is `02` and 31 bytes `00`. -/
def romS5 : Memory := [(0, 1), (32, 2)]

/-- S5 with `TEST_EN` and LIB_PLAIN. -/
def platS5 : Platform where
  romLen := some 64
  rom := romS5
  nRec := 2
  buildMode := .lazyBuild
  testEn := true
  lib := .plain
  feEq := .limbwise

def unbuilt : State := { State.reset with plat := platS5 }
def unbuiltShort : State := { State.reset with plat := { platS5 with romLen := some 63 } }
def unbuiltMissing : State := { State.reset with plat := { platS5 with romLen := none, rom := [] } }
def busy0 : State := { unbuilt with phase := .busy }
def busy1 : State := { unbuilt with phase := .busy, i := 32, j := 1, table := Table.filled romS5 1 }
def busy2 : State := { unbuilt with phase := .busy, i := 64, j := 2, table := Table.filled romS5 2 }
def ready : State := { unbuilt with phase := .ready, i := 64, j := 2, table := Table.filled romS5 2 }
def faulted : State := { unbuiltShort with phase := .fault, fcode := .resLength }

/-- A block about to be reset. -/
def resetting (mode : BuildMode) (len : Option Nat) : State :=
  { unbuilt with plat := { platS5 with buildMode := mode, romLen := len }, schedule := [.reset] }

/-- A block that waits for two held commands. -/
def waiting (s : State) : State := { s with pending := [(0, .read 1), (3, .chklen)] }

/-- A block with one element, whatever it is, as its entry 0. -/
def holding (e : FE) : State := { ready with table := [(0, e)] }

/-- `ROM_PAT` as far as record 7: the byte at offset `n` is `n`. -/
def romPat : Memory := Memory.ofBytesAt 0 ((List.range 256).map (BitVec.ofNat 8))

/-- `Limbs(q)` of 95_test_vectors.md section 5. -/
def limbsOfQ : FE where
  l0 := 0xffffffff00000001
  l1 := 0x53bda402fffe5bfe
  l2 := 0x3339d80809a1d805
  l3 := 0x73eda753299d7d48

/-- `FE(n, 0, 0, 0)`. -/
def low (n : Limb) : FE := { l0 := n, l1 := 0, l2 := 0, l3 := 0 }

/-- One field, or several, of the next state. -/
def after {α : Type} (f : State → α) : Result → Option α
  | .next t => some (f t)
  | .fault _ => none
  | .refused _ => none

/-- What a command delivered, as its status and data. -/
def reply (r : Result) : Option (Option (Status × RespData)) :=
  after (fun t => match t.out with
    | .response r => some (r.status, r.data)
    | .silent => none
    | .limb _ => none
    | .limbs _ => none
    | .element _ => none) r

/-! ### Well-formedness: an ill-formed term for each check is refused -/

theorem test_wf_le64 : WellFormed (.le64 [1, 2, 3, 4, 5, 6, 7, 8]) ∧ ¬ WellFormed (.le64 [1, 2, 3, 4, 5, 6, 7]) ∧
    ¬ WellFormed (.le64 [1, 2, 3, 4, 5, 6, 7, 8, 9]) := by decide

theorem test_wf_chunk : WellFormed (.chunk (List.replicate 32 0)) ∧ ¬ WellFormed (.chunk (List.replicate 31 0)) ∧
    ¬ WellFormed (.chunk (List.replicate 33 0)) := by decide

/-! ### Decoding: words written out bit by bit from R67, R69, R60, R61 -/

/-- `op = 0001`, `rsv = 00`, `idx = 0000000000`. -/
theorem test_decode_init : decode (.command 0b0001000000000000#16) = .ok .init := by decide

/-- `op = 0010`, `rsv = 00`, `idx = 1110111111 = 959`. -/
theorem test_decode_read : decode (.command 0b0010001110111111#16) = .ok (.read 959) := by decide

/-- `op = 0100`, `rsv = 00`, `idx = 0`. -/
theorem test_decode_chklen : decode (.command 0b0100000000000000#16) = .ok .chklen := by decide

/-- `op = 0101`, `rsv = 00`, `idx = 0000000101 = 5`. -/
theorem test_decode_chknz : decode (.command 0b0101000000000101#16) = .ok (.chknz 5) := by decide

/-- `op = 0110`, `rsv = 00`, `idx = 1110111111 = 959`. -/
theorem test_decode_chkrt : decode (.command 0b0110001110111111#16) = .ok (.chkrt 959) := by decide

/-- `phase = 01`, `at_end = 0`. -/
theorem test_decode_step : decode (.sequencer 0b010#3) = .ok .step := by decide

/-- `phase = 01`, `at_end = 1`. -/
theorem test_decode_finish : decode (.sequencer 0b011#3) = .ok .finish := by decide

/-- Format LIMB, bits 63:0 of V2.4; byte 0 is bits 7:0. -/
theorem test_decode_le64 : decode (.datapath (.le64
    0b0000100000000111000001100000010100000100000000110000001000000001#64)) = .ok (.le64 [1, 2, 3, 4, 5, 6, 7, 8]) := by
  decide

/-- Format REC: `W[63:0]` is limb 0, at record bytes 0 to 7, up to `W[255:192]`, at bytes 24 to 31 (V2.11). -/
theorem test_decode_chunk : decode (.datapath (.chunk (4#64 ++ 3#64 ++ 2#64 ++ 1#64)))
    = .ok (.chunk [1, 0, 0, 0, 0, 0, 0, 0, 2, 0, 0, 0, 0, 0, 0, 0, 3, 0, 0, 0, 0, 0, 0, 0, 4, 0, 0, 0, 0, 0, 0, 0]) := by
  decide

/-- Format REC, `W[63:0]` is operand 1. -/
theorem test_decode_fromraw : decode (.datapath (.fromraw (4#64 ++ 3#64 ++ 2#64 ++ 1#64))) = .ok (.fromraw 1 2 3 4) := by
  decide

/-- V4.33 to V4.36, V4.39, V4.42. -/
theorem test_decode_illegal :
    [0x0000#16, 0x1001#16, 0x2400#16, 0x2800#16, 0x2C00#16, 0x3000#16, 0x7000#16, 0xF000#16, 0xFFFF#16, 0x4001#16,
      0x2FFF#16].map decodeCommand
      = [.error .reservedOp, .error .indexNotZero, .error .reservedBits, .error .reservedBits, .error .reservedBits,
        .error .reservedOp, .error .reservedOp, .error .reservedOp, .error .reservedOp, .error .indexNotZero,
        .error .reservedBits] := by decide

/-- V4.19, R69: UNBUILT, READY and FAULT select no step. -/
theorem test_decode_no_loader_step :
    [0b000#3, 0b001#3, 0b100#3, 0b101#3, 0b110#3, 0b111#3].map decodeSequencer
      = List.replicate 6 (.error .noLoaderStep) := by decide

theorem test_table_words :
    decodeTableWord 16 0x1000 = some .init ∧ decodeTableWord 16 0x2000 = some (.read 0) ∧
    decodeTableWord 16 0x4000 = some .chklen ∧ decodeTableWord 16 0x53BF = some (.chknz 959) ∧
    decodeTableWord 16 0x6001 = some (.chkrt 1) ∧ decodeTableWord 8 2 = some .step ∧
    decodeTableWord 8 3 = some .finish ∧ decodeTableWord 64 0x100 = some (.le64 [0, 1, 0, 0, 0, 0, 0, 0]) ∧
    decodeTableWord 256 1 = some (.chunk (1 :: List.replicate 31 0)) ∧ decodeTableWord 16 0x3000 = none ∧
    decodeTableWord 8 4 = none := by decide

/-- From reset each placed command is performed by the very next step. Nothing runs before it. -/
theorem test_place_commands :
    reply (step (State.reset.withFetchWord 16 0x1000)) = some (some (.ok, .noData)) ∧
    after (·.pending) (step (State.reset.withFetchWord 16 0x2003)) = some [(0, .read 3)] ∧
    after (·.pending) (step (State.reset.withFetchWord 16 0x4000)) = some [(0, .chklen)] ∧
    after (·.pending) (step (State.reset.withFetchWord 16 0x5003)) = some [(0, .chknz 3)] ∧
    after (·.pending) (step (State.reset.withFetchWord 16 0x6003)) = some [(0, .chkrt 3)] := by decide

theorem test_place_moves :
    after (fun t => (t.i, t.j, t.phase)) (step (State.reset.withFetchWord 8 2)) = some (32, 1, .busy) ∧
    after (fun t => (t.i, t.j, t.phase)) (step (State.reset.withFetchWord 8 3)) = some (30720, 960, .ready) ∧
    after (·.out) (step (State.reset.withFetchWord 64 0x100)) = some (.limb 256) ∧
    after (·.out) (step (State.reset.withFetchWord 256 1)) = some (.limbs ⟨1, 0, 0, 0⟩) := by decide

/-! ### The datapath (sections 2 and 3) -/

/-- V2.1 to V2.10. -/
theorem test_le64_vectors :
    le64 [0x00, 0x00, 0x00, 0x00, 0x00, 0x00, 0x00, 0x00] = 0x0000000000000000 ∧
    le64 [0x01, 0x00, 0x00, 0x00, 0x00, 0x00, 0x00, 0x00] = 0x0000000000000001 ∧
    le64 [0x00, 0x00, 0x00, 0x00, 0x00, 0x00, 0x00, 0x01] = 0x0100000000000000 ∧
    le64 [0x01, 0x02, 0x03, 0x04, 0x05, 0x06, 0x07, 0x08] = 0x0807060504030201 ∧
    le64 [0xFF, 0xFF, 0xFF, 0xFF, 0xFF, 0xFF, 0xFF, 0xFF] = 0xFFFFFFFFFFFFFFFF ∧
    le64 [0x80, 0x00, 0x00, 0x00, 0x00, 0x00, 0x00, 0x00] = 0x0000000000000080 ∧
    le64 [0x00, 0x00, 0x00, 0x00, 0x00, 0x00, 0x00, 0x80] = 0x8000000000000000 ∧
    le64 [0xEF, 0xCD, 0xAB, 0x89, 0x67, 0x45, 0x23, 0x01] = 0x0123456789ABCDEF ∧
    le64 [0x00, 0x01, 0x00, 0x00, 0x00, 0x00, 0x00, 0x00] = 0x0000000000000100 ∧
    le64 [0xC0, 0x03, 0x00, 0x00, 0x00, 0x00, 0x00, 0x00] = 960 := by decide

/-- R81 (d): seven and nine bytes stop. -/
theorem test_le64_wrong_length :
    after (·.out) (exec (.le64 [1, 2, 3, 4, 5, 6, 7]) ready) = none ∧
    after (·.out) (exec (.le64 [1, 2, 3, 4, 5, 6, 7, 8, 9]) ready) = none ∧
    after (·.out) (exec (.le64 [0, 0, 0, 0, 0, 0, 0, 1]) ready) = some (.limb 0x0100000000000000) := by decide

/-- The chunk of V2.11. -/
def chunk1234 : List Byte :=
  [1, 0, 0, 0, 0, 0, 0, 0, 2, 0, 0, 0, 0, 0, 0, 0, 3, 0, 0, 0, 0, 0, 0, 0, 4, 0, 0, 0, 0, 0, 0, 0]

/-- V2.11 to V2.13. -/
theorem test_chunk_vectors :
    chunk chunk1234 = ⟨1, 2, 3, 4⟩ ∧
    chunk [0xef, 0xcd, 0xab, 0x89, 0x67, 0x45, 0x23, 0x01, 0x10, 0x32, 0x54, 0x76, 0x98, 0xba, 0xdc, 0xfe,
      0, 0, 0, 0, 0, 0, 0, 0, 0xff, 0xff, 0xff, 0xff, 0xff, 0xff, 0xff, 0xff]
      = ⟨0x0123456789ABCDEF, 0xFEDCBA9876543210, 0, 0xFFFFFFFFFFFFFFFF⟩ ∧
    chunk ((List.range 32).map (BitVec.ofNat 8))
      = ⟨0x0706050403020100, 0x0F0E0D0C0B0A0908, 0x1716151413121110, 0x1F1E1D1C1B1A1918⟩ := by decide

/-- V2.15 to V2.20. -/
theorem test_chunk_flips :
    chunk (flipBit chunk1234 0 0) = ⟨0, 2, 3, 4⟩ ∧ chunk (flipBit chunk1234 8 0) = ⟨1, 3, 3, 4⟩ ∧
    chunk (flipBit chunk1234 13 5) = ⟨1, 0x0000200000000002, 3, 4⟩ ∧ chunk (flipBit chunk1234 16 1) = ⟨1, 2, 1, 4⟩ ∧
    chunk (flipBit chunk1234 24 2) = ⟨1, 2, 3, 0⟩ ∧ chunk (flipBit chunk1234 31 7) = ⟨1, 2, 3, 0x8000000000000004⟩ := by
  decide

/-- V3.5, V3.6: the limbs of `q` and others come back unchanged, nothing is reduced. -/
theorem test_fromraw_vectors :
    after (·.out) (exec (.fromraw 0xffffffff00000001 0x53bda402fffe5bfe 0x3339d80809a1d805 0x73eda753299d7d48) unbuilt)
      = some (.element limbsOfQ) ∧
    after (·.out) (exec (.fromraw 0x0123456789ABCDEF 0xFEDCBA9876543210 0 0xFFFFFFFFFFFFFFFF) unbuilt)
      = some (.element ⟨0x0123456789ABCDEF, 0xFEDCBA9876543210, 0, 0xFFFFFFFFFFFFFFFF⟩) := by decide

/-! ### The loader (section 4) -/

/-- V4.1 to V4.6, V4.10 on the hardware instance, from the LAZY reset state. -/
theorem test_init_length_check :
    [some 30720, some 30719, some 30721, some 0, some 64, none, some 61440].map (fun len =>
      after (fun t => (t.phase, t.fcode, t.table))
        (exec .init { State.reset with plat := { Platform.initial with romLen := len } }))
      = [some (.busy, .noFault, []), some (.fault, .resLength, []), some (.fault, .resLength, []),
        some (.fault, .resLength, []), some (.fault, .resLength, []), some (.fault, .resMissing, []),
        some (.fault, .resLength, [])] := by decide

/-- V4.7 to V4.9: the cursors are not reset. -/
theorem test_init_again :
    after (fun t => (t.phase, t.i, t.j)) (exec .init busy1) = some (.busy, 32, 1) ∧
    reply (exec .init busy1) = some (some (.ok, .noData)) ∧ reply (exec .init ready) = some (some (.ok, .noData)) ∧
    reply (exec .init faulted) = some (some (.errFault, .noData)) ∧
    after (fun t => (t.phase, t.fcode)) (exec .init faulted) = some (.fault, .resLength) := by decide

/-- A block in the middle of a build of `ROM_PAT`. -/
def patAt (i : BitVec 15) (j : BitVec 10) : State :=
  { State.reset with plat := { Platform.initial with rom := romPat }, phase := .busy, i := i, j := j }

/-- V4.11, V4.13. -/
theorem test_step_vectors :
    after (fun t => (t.table, t.i, t.j)) (exec .step (patAt 0 0))
      = some ([(0, ⟨0x0706050403020100, 0x0F0E0D0C0B0A0908, 0x1716151413121110, 0x1F1E1D1C1B1A1918⟩)], 32, 1) ∧
    after (fun t => (t.table, t.i, t.j)) (exec .step (patAt 224 7))
      = some ([(7, ⟨0xE7E6E5E4E3E2E1E0, 0xEFEEEDECEBEAE9E8, 0xF7F6F5F4F3F2F1F0, 0xFFFEFDFCFBFAF9F8⟩)], 256, 8) := by
  decide +kernel

/-- The cursors of V4.15, and V4.16: after the last STEP there is none. -/
theorem test_step_last :
    after (fun t => (t.i, t.j)) (exec .step (patAt 30688 959)) = some (30720, 960) ∧
    after (·.i) (exec .step (patAt 30720 960)) = none ∧ after (·.i) (exec .step ready) = none := by decide +kernel

/-- V4.17 to V4.19. -/
theorem test_finish :
    after (fun t => (t.phase, t.i, t.j, t.out)) (exec .finish (patAt 30720 960))
      = some (.ready, 30720, 960, .silent) ∧
    after (·.phase) (exec .finish (patAt 30688 959)) = none ∧ after (·.phase) (exec .finish unbuilt) = none := by
  decide

/-- S5 and V4.20, V4.21, V4.25, V4.26, V4.31. -/
theorem test_read_ready :
    reply (exec (.read 0) ready) = some (some (.ok, .element (low 1))) ∧
    reply (exec (.read 1) ready) = some (some (.ok, .element (low 2))) ∧
    [ready, unbuilt, busy1, faulted].map (fun s => reply (exec (.read 2) s))
      = List.replicate 4 (some (some (.errIndex, .noData))) ∧
    after (·.phase) (exec (.read 1023) unbuilt) = some .unbuilt := by decide

/-- V4.27 to V4.30. -/
theorem test_read_gating :
    after (fun t => (t.phase, t.i, t.j)) (exec (.read 1) unbuilt) = some (.busy, 0, 0) ∧
    after (fun t => (t.phase, t.pending)) (exec (.read 0) busy1) = some (.busy, [(0, .read 0)]) ∧
    after (fun t => (t.phase, t.fcode)) (exec (.read 1) unbuiltShort) = some (.fault, .resLength) ∧
    reply (exec (.read 1) faulted) = some (some (.errFault, .noData)) := by decide

/-! ### The validation pass (section 5) -/

/-- V5.14, V5.16, and V4.37: without `TEST_EN` the command is illegal and starts no build. -/
theorem test_chklen :
    reply (exec .chklen ready) = some (some (.ok, .check true)) ∧
    after (·.pending) (exec .chklen busy1) = some [(0, .chklen)] ∧
    reply (exec .chklen (holding (low 1))) = some (some (.ok, .check false)) ∧
    after (·.phase) (exec .chklen State.reset) = some .unbuilt ∧
    reply (exec .chklen State.reset) = some (some (.errIllegal, .noData)) := by decide

/-- V5.9 to V5.12. -/
theorem test_chknz :
    [low 1, low 0, ⟨0, 0, 0, 0x8000000000000000⟩, limbsOfQ].map (fun e => reply (exec (.chknz 0) (holding e)))
      = [true, false, true, true].map (fun p => some (some (.ok, .check p))) := by decide

/-- V5.1, V5.3 to V5.8 under LIB_PLAIN. -/
theorem test_chkrt_plain :
    [low 1, ⟨0xffffffff00000000, 0x53bda402fffe5bfe, 0x3339d80809a1d805, 0x73eda753299d7d48⟩, limbsOfQ,
      ⟨0xFFFFFFFFFFFFFFFF, 0xFFFFFFFFFFFFFFFF, 0xFFFFFFFFFFFFFFFF, 0xFFFFFFFFFFFFFFFF⟩, low 0,
      ⟨0, 0, 0, 0x8000000000000000⟩, low 0x3C0].map (fun e => roundTrips platS5 e)
      = [true, true, false, false, true, false, true] := by decide +kernel

/-- V5.1 under LIB_MONT: the encoding's bytes. -/
theorem test_encode_mont :
    (List.finRange 32).map (fieldEncode .mont (low 1))
      = [0x40, 0xc0, 0x75, 0xfe, 0x69, 0x5b, 0xf7, 0x13, 0x5f, 0x70, 0xdc, 0x09, 0x8f, 0xca, 0x6f, 0xab,
        0x6a, 0x26, 0x77, 0x4f, 0x8a, 0x07, 0x04, 0x72, 0x57, 0x9d, 0x00, 0x30, 0x93, 0x86, 0xbe, 0x1b] := by
  decide +kernel

/-- V5.5: the encoding of the all-ones limbs under LIB_PLAIN. -/
theorem test_encode_plain :
    (List.finRange 32).map (fieldEncode .plain
        ⟨0xFFFFFFFFFFFFFFFF, 0xFFFFFFFFFFFFFFFF, 0xFFFFFFFFFFFFFFFF, 0xFFFFFFFFFFFFFFFF⟩)
      = [0xfd, 0xff, 0xff, 0xff, 0x01, 0x00, 0x00, 0x00, 0x02, 0x48, 0x03, 0x00, 0xfa, 0xb7, 0x84, 0x58,
        0xf5, 0x4f, 0xbc, 0xec, 0xef, 0x4f, 0x8c, 0x99, 0x6f, 0x05, 0xc5, 0xac, 0x59, 0xb1, 0x24, 0x18] := by
  decide +kernel

/-- V5.13, V5.15, V5.17. -/
theorem test_check_gating :
    after (fun t => (t.phase, t.pending)) (exec (.chknz 0) unbuilt) = some (.busy, [(0, .chknz 0)]) ∧
    reply (exec (.chkrt 0) unbuiltMissing) = some (some (.errFault, .noData)) ∧
    after (·.fcode) (exec (.chkrt 0) unbuiltMissing) = some .resMissing ∧
    reply (exec (.chkrt 2) ready) = some (some (.errIndex, .noData)) := by decide

/-- V4.40, V4.41: IndexRange with `TEST_EN`, IllegalCommand without. -/
theorem test_check_priority :
    reply (exec (.chknz 960) ready) = some (some (.errIndex, .noData)) ∧
    reply (exec (.chknz 960) State.reset) = some (some (.errIllegal, .noData)) := by decide

/-- The text forms of R73 and R74 (P1, P2). -/
theorem test_text :
    asmText (.read 959) = "READ 959" ∧
    resultText .noFault { agent := 0, status := .ok, data := .element (low 2) } = "FE(2, 0, 0, 0)" ∧
    resultText .resLength { agent := 0, status := .errFault, data := .noData } = "ResourceShape(RES_LENGTH)" := by
  decide

/-! ### The step of the block -/

/-- P3: an agent that waits issues nothing; another one is held as well. -/
theorem test_two_readers :
    after (·.pending) (step { waiting busy1 with schedule := [.command 0 0x2000#16] })
      = some [(0, .read 1), (3, .chklen)] ∧
    after (·.pending) (step { waiting busy1 with schedule := [.command 1 0x2000#16] })
      = some [(0, .read 1), (1, .read 0), (3, .chklen)] := by decide

/-- P5: a reset in the middle of a lazy build; PREBUILT with the right and with a wrong length. -/
theorem test_reset :
    after (·.phase) (step { waiting busy1 with schedule := [.reset] }) = some .unbuilt ∧
    after (·.table) (step { waiting busy1 with schedule := [.reset] }) = some [] ∧
    after (·.pending) (step { waiting busy1 with schedule := [.reset] }) = some [] ∧
    after (fun t => (t.i, t.j)) (step (resetting .prebuilt (some 64))) = some (64, 2) ∧
    after (·.table) (step (resetting .prebuilt (some 64))) = some [(0, low 1), (1, low 2)] ∧
    after (fun t => (t.phase, t.fcode)) (step (resetting .prebuilt (some 63))) = some (.fault, .resLength) := by decide

/-- R106: the held READ is answered to its agent once READY. -/
theorem test_hold_lifted :
    after (fun t => (t.pending, t.out)) (step { waiting ready with schedule := [.poll 0] })
      = some ([(3, .chklen)], .response { agent := 0, status := .ok, data := .element (low 2) }) := by decide

/-! ### The pseudo-operations -/

/-- S5: LOAD of the two-record instance. From the middle of a build it takes the steps that remain, which is the model's
choice (log entry 28). -/
theorem test_load :
    after (fun t => (t.phase, t.i, t.j)) (load unbuilt) = some (.ready, 64, 2) ∧
    after (·.table) (load unbuilt) = some [(0, low 1), (1, low 2)] ∧
    after (·.table) (load busy1) = some [(0, low 1), (1, low 2)] := by decide

/-- R105, V4.2, V4.6: with any other length LOAD ends in FAULT, no entry written, and the fault is its answer. -/
theorem test_load_bad_length :
    after (fun t => (t.phase, t.fcode, t.table)) (load unbuiltShort) = some (.fault, .resLength, []) ∧
    reply (load unbuiltShort) = some (some (.errFault, .noData)) ∧
    after (fun t => (t.phase, t.fcode, t.table)) (load unbuiltMissing) = some (.fault, .resMissing, []) := by decide

/-- The phase a pass leaves, and its first failing check. -/
def verdict : Host.Outcome (State × Option Gated) Fault Refusal → Option (Phase × Option Gated)
  | .next (t, failing) => some (t.phase, failing)
  | .fault _ => none
  | .refused _ => none

/-- A block before its first use, with another ROM of two records. -/
def unbuiltWith (rom : Memory) : State := { unbuilt with plat := { platS5 with rom := rom } }

/-- P4: CHKLEN starts the build and is held, then PASS; a zero record fails its CHKNZ, and a record that spells `q` fails
its CHKRT only. From the middle of a build, and after it, the verdict is the same. -/
theorem test_validate :
    verdict (validate 7 unbuilt) = some (.ready, none) ∧ verdict (validate 7 busy1) = some (.ready, none) ∧
    verdict (validate 7 ready) = some (.ready, none) ∧
    verdict (validate 7 (unbuiltWith [(0, 1)])) = some (.ready, some (.chknz 1)) ∧
    verdict (validate 7 (unbuiltWith ((0, 1) :: Memory.ofBytesAt 32
      [0x01, 0x00, 0x00, 0x00, 0xff, 0xff, 0xff, 0xff, 0xfe, 0x5b, 0xfe, 0xff, 0x02, 0xa4, 0xbd, 0x53,
        0x05, 0xd8, 0xa1, 0x09, 0x08, 0xd8, 0x39, 0x33, 0x48, 0x7d, 0x9d, 0x29, 0x53, 0xa7, 0xed, 0x73])))
      = some (.ready, some (.chkrt 1)) := by decide +kernel

/-- Without a good ROM, or without `TEST_EN` (P4, V4.37), the pass fails at CHKLEN; without `TEST_EN` no build starts. -/
theorem test_validate_refused :
    verdict (validate 7 unbuiltShort) = some (.fault, some .chklen) ∧
    verdict (validate 7 { unbuilt with plat := { platS5 with testEn := false } }) = some (.unbuilt, some .chklen) := by
  decide

/-! ### The small blocks meet the invariants of R109 -/

theorem plat_wf (p : Platform) (hn : p.nRec = 2) (hr : p.rom = romS5) (hl : 32 < p.romLen.getD 0) : p.wf := by
  refine ⟨by rw [hn]; decide, by rw [hr]; decide, ?_⟩
  rw [hr]
  intro c hc
  simp only [romS5, List.mem_cons, List.not_mem_nil, or_false] at hc
  rcases hc with rfl | rfl
  · exact Nat.lt_of_le_of_lt (by decide) hl
  · exact hl

theorem inv_unbuilt : LoaderInv unbuilt where
  plat := plat_wf _ rfl rfl (by decide)
  table := ⟨List.Pairwise.nil, by decide⟩
  pending := List.Pairwise.nil
  phase := ⟨rfl, rfl, rfl, rfl⟩

theorem inv_unbuiltShort : LoaderInv unbuiltShort where
  plat := plat_wf _ rfl rfl (by decide)
  table := ⟨List.Pairwise.nil, by decide⟩
  pending := List.Pairwise.nil
  phase := ⟨rfl, rfl, rfl, rfl⟩

theorem inv_unbuiltMissing : LoaderInv unbuiltMissing where
  plat := ⟨by decide, by decide, by decide⟩
  table := ⟨List.Pairwise.nil, by decide⟩
  pending := List.Pairwise.nil
  phase := ⟨rfl, rfl, rfl, rfl⟩

theorem inv_busy0 : LoaderInv busy0 where
  plat := plat_wf _ rfl rfl (by decide)
  table := ⟨List.Pairwise.nil, by decide⟩
  pending := List.Pairwise.nil
  phase := ⟨rfl, rfl, rfl, rfl, by decide, fun m => by simp [busy0, unbuilt, State.reset, Table.get]⟩

theorem inv_busy1 : LoaderInv busy1 where
  plat := plat_wf _ rfl rfl (by decide)
  table := ⟨(Table.wf_filled romS5 1).1, fun c hc => Nat.lt_trans ((Table.wf_filled romS5 1).2 c hc) (by decide)⟩
  pending := List.Pairwise.nil
  phase := ⟨rfl, rfl, rfl, rfl, by decide, fun m => Table.get_filled romS5 1 m⟩

theorem inv_busy2 : LoaderInv busy2 where
  plat := plat_wf _ rfl rfl (by decide)
  table := Table.wf_filled romS5 2
  pending := List.Pairwise.nil
  phase := ⟨rfl, rfl, rfl, rfl, by decide, fun m => Table.get_filled romS5 2 m⟩

theorem inv_ready : LoaderInv ready where
  plat := plat_wf _ rfl rfl (by decide)
  table := Table.wf_filled romS5 2
  pending := List.Pairwise.nil
  phase := ⟨rfl, rfl, rfl, rfl, fun m => Table.get_filled romS5 2 m⟩

theorem inv_waiting_ready : LoaderInv (waiting ready) where
  plat := inv_ready.plat
  table := inv_ready.table
  pending := by decide
  phase := ⟨rfl, rfl, rfl, rfl, fun m => Table.get_filled romS5 2 m⟩

theorem inv_faulted : LoaderInv faulted where
  plat := plat_wf _ rfl rfl (by decide)
  table := ⟨List.Pairwise.nil, by decide⟩
  pending := List.Pairwise.nil
  phase := ⟨rfl, rfl, rfl⟩

/-- The invariants say nothing of the schedule. -/
theorem inv_scheduled {s : State} (h : LoaderInv s) (events : List Event) : LoaderInv { s with schedule := events } where
  plat := h.plat
  table := h.table
  pending := h.pending
  phase := by
    have hp := h.phase
    unfold PhaseInv at hp ⊢
    cases hs : s.phase <;> simp only [hs] at hp ⊢ <;> exact hp

/-! ### Witnesses: for each statement with hypotheses, values that meet them, at the ends of their ranges -/

theorem witness_Le64IsLittleEndianSum : ([1, 2, 3, 4, 5, 6, 7, 8] : List Byte).length = 8 := by decide

theorem witness_Le64Laws : ([1, 2, 3, 4, 5, 6, 7, 8] : List Byte).length = 8 ∧ 0 < 8 ∧ 7 < 8 ∧
    ([1, 2, 3, 4, 5, 6, 7, 8] : List Byte).reverse ≠ [1, 2, 3, 4, 5, 6, 7, 8] ∧
    decode (.datapath (.le64 5#64)) = .ok (.le64 [5, 0, 0, 0, 0, 0, 0, 0]) ∧ chunk1234.length = 32 ∧ 3 < 4 := by decide

theorem witness_Le64OperandLengthStops : ([1, 2, 3, 4, 5, 6, 7] : List Byte).length ≠ 8 ∧
    ([1, 2, 3, 4, 5, 6, 7, 8, 9] : List Byte).length ≠ 8 ∧ ([] : List Byte).length ≠ 8 := by decide

theorem witness_ChunkIsFourLimbsInOrder : chunk1234.length = 32 ∧ 0 < 4 ∧ 3 < 4 := by decide

theorem witness_ChunkLaws : chunk1234.length = 32 ∧ 0 < 32 ∧ 31 < 32 ∧ 0 < 8 ∧ 7 < 8 ∧ 0 < 4 ∧ 3 < 4 := by decide

theorem witness_ChunkOperandLengthStops : (List.replicate 31 (0 : Byte)).length ≠ 32 ∧
    (List.replicate 33 (0 : Byte)).length ≠ 32 ∧ ([] : List Byte).length ≠ 32 := by decide

theorem witness_RecordToElementLaws : chunk1234.length = 32 ∧ 31 < 32 ∧ 7 < 8 ∧ 3 < 4 ∧ 63 < 64 ∧
    (∃ t, exec (.fromraw 1 2 3 4) unbuilt = .next t) ∧ ∃ t, exec (.fromraw 1 2 3 4) faulted = .next t :=
  ⟨by decide, by decide, by decide, by decide, by decide, ⟨_, rfl⟩, ⟨_, rfl⟩⟩

theorem witness_ResponsePortLayout : 0 < 4 ∧ 3 < 4 ∧ ready.phase = .ready ∧ (1 : Idx).toNat < ready.plat.nRec ∧
    ready.table.get (1 : Idx).toNat = some (low 2) := by decide

theorem witness_InitIsIdempotent : (∃ t, exec .init unbuilt = .next t) ∧ (∃ t, exec .init unbuiltMissing = .next t) ∧
    busy1.phase = .busy ∧ ready.phase = .ready ∧ faulted.phase = .fault :=
  ⟨⟨_, rfl⟩, ⟨_, rfl⟩, rfl, rfl, rfl⟩

theorem witness_StepBuildsOneEntry : LoaderInv busy0 ∧ busy0.phase = .busy ∧ busy0.i.toNat < 32 * busy0.plat.nRec ∧
    LoaderInv busy1 ∧ busy1.phase = .busy ∧ busy1.i.toNat < 32 * busy1.plat.nRec :=
  ⟨inv_busy0, rfl, by decide, inv_busy1, rfl, by decide⟩

theorem witness_FinishPublishesTheTable :
    LoaderInv busy2 ∧ busy2.phase = .busy ∧ busy2.i.toNat = 32 * busy2.plat.nRec ∧
    ∃ t, exec .finish busy2 = .next t ∧ Event.reset ∉ t.schedule ∧ ∃ u, core.run 2 t = .next u :=
  ⟨inv_busy2, rfl, by decide, ⟨_, rfl, fun h => (by cases h), ⟨_, rfl⟩⟩⟩

theorem witness_SelectorChoosesTheLoaderStep : busy1.sel = 0b010#3 ∧ busy2.sel = 0b011#3 ∧ unbuilt.phase ≠ .busy ∧
    LoaderInv busy2 ∧ busy2.phase = .busy ∧ (0b001#3 : Sel) ≠ 0b010#3 ∧ (0b001#3 : Sel) ≠ 0b011#3 :=
  ⟨by decide, by decide, by decide, inv_busy2, rfl, by decide, by decide⟩

theorem witness_UnselectedLoaderStepIsRefused : [unbuilt, ready, faulted].all (fun s =>
    s.sel != 0b010#3 && s.sel != 0b011#3) = true ∧ busy2.sel ≠ 0b010#3 ∧ busy1.sel ≠ 0b011#3 := by decide

theorem witness_LoaderStepFrame : (∃ t, exec .step busy0 = .next t) ∧ (∃ t, exec .finish busy2 = .next t) ∧
    1 ≠ busy0.j.toNat := ⟨⟨_, rfl⟩, ⟨_, rfl⟩, by decide⟩

theorem witness_ReadTransition :
    LoaderInv unbuilt ∧ LoaderInv unbuiltShort ∧ LoaderInv unbuiltMissing ∧ LoaderInv busy1 ∧ LoaderInv ready ∧
      LoaderInv faulted :=
  ⟨inv_unbuilt, inv_unbuiltShort, inv_unbuiltMissing, inv_busy1, inv_ready, inv_faulted⟩

theorem witness_ChecksAreGatedLikeRead :
    unbuilt.plat.testEn = true ∧ (∀ idx, Gated.chknz 2 ≠ .read idx) ∧ (∀ idx, Gated.chklen ≠ .read idx) ∧
    gateInRange (.chknz 2) unbuilt.plat.nRec = false ∧ gateInRange (.chkrt 1) unbuilt.plat.nRec = true ∧
    gateInRange .chklen unbuilt.plat.nRec = true ∧
    unbuilt.phase = .unbuilt ∧ unbuilt.plat.romLen = some (32 * unbuilt.plat.nRec) ∧
    unbuiltShort.plat.testEn = true ∧ unbuiltShort.phase = .unbuilt ∧
    unbuiltShort.plat.romLen ≠ some (32 * unbuiltShort.plat.nRec) ∧
    busy1.plat.testEn = true ∧ busy1.phase = .busy ∧ faulted.plat.testEn = true ∧ faulted.phase = .fault ∧
    ready.plat.testEn = true ∧ ready.phase = .ready ∧ (ready.table.get (1 : Idx).toNat).isSome = true :=
  ⟨rfl, fun _ h => (by cases h), fun _ h => (by cases h), by decide, by decide, by decide, rfl, by decide, rfl, rfl,
    by decide, rfl, rfl, rfl, rfl, rfl, rfl, by decide⟩

theorem witness_IndexOutOfRangeIsRefused : ready.plat.nRec ≤ (2 : Idx).toNat ∧ ready.plat.testEn = true ∧
    State.reset.plat.nRec ≤ (960 : Idx).toNat ∧ State.reset.plat.nRec ≤ (1023 : Idx).toNat := by decide

theorem witness_CommandFrame : isCommand (.read 0) = true ∧ (∃ t, exec (.read 0) busy1 = .next t) ∧
    busy1.phase ≠ .unbuilt ∧ (1 : AgentId) ≠ busy1.requester := ⟨rfl, ⟨_, rfl⟩, by decide, by decide⟩

theorem witness_DatapathFrame : (∃ t, exec (.le64 [1, 2, 3, 4, 5, 6, 7, 8]) busy1 = .next t) ∧
    (∃ t, exec (.chunk chunk1234) busy1 = .next t) ∧ ∃ t, exec (.fromraw 1 2 3 4) busy1 = .next t :=
  ⟨⟨_, rfl⟩, ⟨_, rfl⟩, ⟨_, rfl⟩⟩

/-- Both answers of CHKLEN, CHKNZ and CHKRT occur: `holding (low 1)` lacks entry 1. -/
theorem witness_ChklenCountsTheEntries : LoaderInv ready ∧ ready.plat.testEn = true ∧ ready.phase = .ready ∧
    (holding (low 1)).plat.testEn = true ∧ (holding (low 1)).phase = .ready ∧
    ((holding (low 1)).table.get 1).isSome = false ∧ State.reset.plat.testEn = false ∧
    faulted.plat.testEn = true ∧ faulted.phase = .fault ∧ (1 : Idx) ≠ 0 := ⟨inv_ready, by decide⟩

theorem witness_ChknzComparesWithZero : ready.plat.testEn = true ∧ ready.phase = .ready ∧
    (1 : Idx).toNat < ready.plat.nRec ∧ ready.table.get (1 : Idx).toNat = some (low 2) ∧ ready.plat.feEq = .limbwise ∧
    fieldZero ready.plat.lib = ⟨0, 0, 0, 0⟩ ∧ (holding (low 0)).table.get (0 : Idx).toNat = some (low 0) ∧
    (holding (low 0)).plat.testEn = true ∧ (holding (low 0)).phase = .ready ∧ State.reset.plat.testEn = false ∧
    ready.plat.nRec ≤ (2 : Idx).toNat ∧ faulted.plat.testEn = true ∧ faulted.phase = .fault ∧
    (1 : Idx).toNat < faulted.plat.nRec := by decide

theorem witness_ChkrtRoundTrips : ready.plat.testEn = true ∧ ready.phase = .ready ∧
    (1 : Idx).toNat < ready.plat.nRec ∧ ready.table.get (1 : Idx).toNat = some (low 2) ∧ ready.plat.feEq = .limbwise ∧
    (holding limbsOfQ).table.get (0 : Idx).toNat = some limbsOfQ ∧ (holding limbsOfQ).plat.testEn = true ∧
    (holding limbsOfQ).phase = .ready ∧ State.reset.plat.testEn = false ∧ ready.plat.nRec ≤ (2 : Idx).toNat ∧
    faulted.plat.testEn = true ∧ faulted.phase = .fault ∧ (1 : Idx).toNat < faulted.plat.nRec := by decide

theorem witness_RoundTripMeansBelowThePrime : platS5.lib ≠ .blackBox ∧ platS5.feEq = .limbwise ∧
    FieldLib.mont ≠ .blackBox ∧ ¬ rawInt limbsOfQ < illustrativePrime ∧ rawInt (low 1) < illustrativePrime := by decide

theorem witness_ValidateJudgesTheRom : LoaderInv unbuilt ∧ LoaderInv busy1 ∧ LoaderInv ready ∧
    findCell ready.pending 7 = none ∧ ready.plat.testEn = true ∧ ready.plat.romLen = some (32 * ready.plat.nRec) ∧
    LoaderInv unbuiltShort ∧ unbuiltShort.plat.testEn = true ∧
    unbuiltShort.plat.romLen ≠ some (32 * unbuiltShort.plat.nRec) ∧ LoaderInv faulted :=
  ⟨inv_unbuilt, inv_busy1, inv_ready, rfl, rfl, by decide, inv_unbuiltShort, rfl, by decide, inv_faulted⟩

theorem witness_ValidateJudgesTheRom_production : LoaderInv State.reset ∧ findCell State.reset.pending 7 = none ∧
    State.reset.plat.testEn = false :=
  ⟨{ plat := ⟨by decide, by decide, by decide⟩
     table := ⟨List.Pairwise.nil, by decide⟩
     pending := List.Pairwise.nil
     phase := ⟨rfl, rfl, rfl, rfl⟩ }, rfl, rfl⟩

theorem witness_CommandRowsAreDisjoint : ∀ r ∈ cmdRows, r.pattern &&& r.mask = r.pattern := by decide

theorem witness_DecodeOfEncode : WellFormed (.le64 [1, 2, 3, 4, 5, 6, 7, 8]) ∧ WellFormed (.chunk chunk1234) ∧
    WellFormed (.read 1023) := by decide

theorem witness_EncodeOfDecode : decode (.command 0x23FF#16) = .ok (.read 1023) ∧ decode (.sequencer 2#3) = .ok .step ∧
    decode (.datapath (.fromraw 1#256)) = .ok (.fromraw 1 0 0 0) := by decide

theorem witness_StepRunsTheDecodedOperation :
    { ready with schedule := [.command 7 0x2001#16] }.schedule = [.command 7 0x2001#16] ∧
    findCell { ready with schedule := [.command 7 0x2001#16] }.pending 7 = none ∧
    decode (.command 0x2001#16) = .ok (.read 1) ∧ decode (.sequencer busy0.sel) = .ok .step ∧
    decode (.sequencer busy2.sel) = .ok .finish ∧ decode (.datapath (.le64 5#64)) = .ok (.le64 [5, 0, 0, 0, 0, 0, 0, 0]) := by
  decide

theorem witness_IllegalWordIsAnswered :
    findCell { ready with schedule := [.command 7 0x3000#16] }.pending 7 = none ∧
    (0x3000#16).extractLsb' 12 4 ∉ [1#4, 2#4, 4#4, 5#4, 6#4] ∧ (0x2400#16).extractLsb' 10 2 ≠ 0 ∧
    (0x1001#16).extractLsb' 0 10 ≠ 0 ∧ (0x1001#16).extractLsb' 12 4 ∈ [1#4, 4#4] ∧
    State.reset.plat.testEn = false ∧ (0x63BF#16).extractLsb' 12 4 ∈ [4#4, 5#4, 6#4] := by decide

theorem witness_HeldCommandIsReexamined : findCell (waiting ready).pending 0 = some (.read 1) ∧
    findCell (waiting busy1).pending 3 = some .chklen ∧ (waiting ready).phase = .ready ∧
    (waiting faulted).phase = .fault ∧ (waiting unbuilt).phase = .unbuilt ∧ (waiting busy1).phase = .busy ∧
    { waiting busy1 with schedule := [.reset] }.schedule = [.reset] := by decide

theorem witness_WaitingAgentIssuesNothing : findCell (waiting busy1).pending 0 = some (.read 1) := by decide

theorem witness_LazyResetTransition : (resetting .lazyBuild (some 64)).schedule = [.reset] ∧
    (resetting .lazyBuild (some 64)).plat.buildMode = .lazyBuild := by decide

theorem witness_PrebuiltResetTransition : (resetting .prebuilt (some 64)).schedule = [.reset] ∧
    (resetting .prebuilt (some 64)).plat.buildMode = .prebuilt ∧ (resetting .prebuilt (some 64)).plat.nRec ≤ 960 ∧
    (resetting .prebuilt (some 64)).plat.romLen = some (32 * (resetting .prebuilt (some 64)).plat.nRec) ∧
    (resetting .prebuilt none).plat.romLen = none ∧
    (resetting .prebuilt (some 63)).plat.romLen = some 63 ∧ 63 ≠ 32 * (resetting .prebuilt (some 63)).plat.nRec := by
  decide

theorem witness_PrebuiltResetTransition_mode :
    LoaderInv { ready with plat := { platS5 with buildMode := .prebuilt } } ∧
    ∃ t, exec (.read 1) { ready with plat := { platS5 with buildMode := .prebuilt } } = .next t :=
  ⟨{ plat := plat_wf _ rfl rfl (by decide)
     table := Table.wf_filled romS5 2
     pending := List.Pairwise.nil
     phase := ⟨rfl, rfl, rfl, rfl, fun m => Table.get_filled romS5 2 m⟩ }, ⟨_, rfl⟩⟩

theorem witness_EveryStepKeepsTheInvariants : LoaderInv busy1 ∧ (∃ t, step busy1 = .next t) ∧ ¬ busy1.resetNext :=
  ⟨inv_busy1, ⟨_, rfl⟩, fun h => (by cases h)⟩

theorem witness_EveryStepGoesOn : LoaderInv unbuilt ∧ LoaderInv busy2 ∧ LoaderInv (waiting ready) ∧ LoaderInv faulted :=
  ⟨inv_unbuilt, inv_busy2, inv_waiting_ready, inv_faulted⟩

theorem witness_PhaseMovesOnlyForward : ¬ busy2.resetNext ∧ (∃ t, step busy2 = .next t) :=
  ⟨fun h => (by cases h), ⟨_, rfl⟩⟩

theorem witness_RomAndStrapsNeverChange : ∃ t, step (resetting .prebuilt (some 64)) = .next t := ⟨_, rfl⟩

theorem witness_ReadyTableIsImmutable : (waiting ready).phase = .ready ∧ ¬ (waiting ready).resetNext ∧
    ∃ t, step (waiting ready) = .next t := ⟨rfl, fun h => (by cases h), ⟨_, rfl⟩⟩

theorem witness_FaultIsLeftOnlyByReset : faulted.phase = .fault ∧ ¬ faulted.resetNext ∧ ∃ t, step faulted = .next t :=
  ⟨rfl, fun h => (by cases h), ⟨_, rfl⟩⟩

/-- Issued, and held. -/
theorem witness_ReadDeliversTheDecodedRecord :
    LoaderInv { ready with schedule := [.command 4 0x2001#16] } ∧
    (∃ t, step { ready with schedule := [.command 4 0x2001#16] } = .next t ∧
      t.out = .response { agent := 4, status := .ok, data := .element (decodeRecord romS5 1) }) ∧
    LoaderInv (waiting ready) ∧
    ∃ t, step (waiting ready) = .next t ∧
      t.out = .response { agent := 0, status := .ok, data := .element (decodeRecord romS5 1) } :=
  ⟨inv_scheduled inv_ready _, ⟨_, rfl, rfl⟩, inv_waiting_ready, ⟨_, rfl, rfl⟩⟩

theorem witness_BadResourceNeverGivesData :
    LoaderInv { unbuiltShort with schedule := [.command 4 0x2001#16] } ∧
    unbuiltShort.plat.romLen ≠ some (32 * unbuiltShort.plat.nRec) ∧
    ∃ t r, step { unbuiltShort with schedule := [.command 4 0x2001#16] } = .next t ∧ t.out = .response r :=
  ⟨inv_scheduled inv_unbuiltShort _, by decide, ⟨_, _, rfl, rfl⟩⟩

theorem witness_PartialTableIsHidden : isCommand (.read 0) = true ∧ busy1.phase = .busy ∧
    ∃ t, exec (.read 0) busy1 = .next t := ⟨rfl, rfl, ⟨_, rfl⟩⟩

theorem witness_TableViewIsTheDecodedTable : LoaderInv ready ∧ LoaderInv busy2 := ⟨inv_ready, inv_busy2⟩

theorem witness_LoadBuildsTheWholeTable : LoaderInv unbuilt ∧ unbuilt.phase = .unbuilt ∧
    unbuilt.plat.romLen = some (32 * unbuilt.plat.nRec) ∧ LoaderInv unbuiltShort ∧ unbuiltShort.phase = .unbuilt ∧
    unbuiltShort.plat.romLen ≠ some (32 * unbuiltShort.plat.nRec) ∧ LoaderInv unbuiltMissing ∧
    unbuiltMissing.plat.romLen ≠ some (32 * unbuiltMissing.plat.nRec) :=
  ⟨inv_unbuilt, rfl, by decide, inv_unbuiltShort, rfl, by decide, inv_unbuiltMissing, by decide⟩

theorem witness_SameRomSameTable : LoaderInv ready ∧ LoaderInv (waiting ready) ∧ ready.phase = .ready ∧
    (waiting ready).phase = .ready ∧ ready.plat.rom = (waiting ready).plat.rom ∧
    ready.plat.nRec = (waiting ready).plat.nRec ∧ (1 : Idx).toNat < ready.plat.nRec :=
  ⟨inv_ready, inv_waiting_ready, rfl, rfl, rfl, rfl, by decide⟩

/-- Bit 7 of the last byte of record 0 (the end of both ranges), as in the second run of P6. -/
theorem witness_BitFlipIsLocal : 31 < 32 ∧ 7 < 8 ∧
    ∀ a, Memory.read [(0, 1), (31, 0x80), (32, 2)] a
      = if a = 32 * 0 + 31 then Memory.read romS5 a ^^^ (1#8 <<< 7) else Memory.read romS5 a := by
  refine ⟨by decide, by decide, fun a => ?_⟩
  by_cases h : a = 31
  · subst h
    decide
  · simp [Memory.read, romS5, findCell, h, eq_comm]

theorem witness_BuildFinishesInTheStepsThatRemain : LoaderInv busy0 ∧ busy0.phase = .busy ∧ busy0.schedule = [] ∧
    LoaderInv busy2 ∧ busy2.phase = .busy ∧ busy2.schedule = [] := ⟨inv_busy0, rfl, rfl, inv_busy2, rfl, rfl⟩

theorem witness_HeldCommandsAreAllAnswered : LoaderInv (waiting ready) ∧ (waiting ready).phase = .ready ∧
    (waiting ready).schedule = [] ∧ (waiting ready).pending = (0, .read 1) :: [(3, .chklen)] :=
  ⟨inv_waiting_ready, rfl, rfl, rfl⟩

end Sys2Proof.Tests
end

section
/-! PROOFS. Family 30_encoding.md: the read-response port (R63) and the selector of the loader agent (R69). -/

namespace Sys2Proof.Machine

variable {s : State}

/-! ### Format FE (R63) -/

theorem execRead_of_stored {idx : Idx} {e : FE} (hp : s.phase = .ready) (hidx : idx.toNat < s.plat.nRec)
    (he : s.table.get idx.toNat = some e) : execRead idx s = .next (s.answer .ok (.element e)) := by
  have hrange : gateInRange (.read idx) s.plat.nRec = true := decide_eq_true hidx
  unfold execRead
  rw [gated_of_ready hrange hp, fromEntry_of_some he]

/-- The port word of an element is the FROMRAW operand its limbs are encoded to, so the decoder of format REC takes it
apart again (R63, R66). -/
theorem decodeDatapath_fePort (e : FE) :
    decodeDatapath (.fromraw (fePort e)) = .fromraw e.l0 e.l1 e.l2 e.l3 := by
  have hround : decode (encode (.fromraw e.l0 e.l1 e.l2 e.l3)) = .ok (.fromraw e.l0 e.l1 e.l2 e.l3) :=
    Laws.RoundTrip.fromraw e.l0 e.l1 e.l2 e.l3 rfl
  exact Except.ok.inj hround

theorem extractLsb'_fePort (e : FE) {m : Nat} (hm : m < 4) : (fePort e).extractLsb' (64 * m) 64 = feLimb e m := by
  obtain ⟨h0, h1, h2, h3⟩ := Instr.fromraw.inj (decodeDatapath_fePort e)
  match m, hm with
  | 0, _ => exact h0
  | 1, _ => exact h1
  | 2, _ => exact h2
  | 3, _ => exact h3

/-! ### The loader agent's selector (R69) -/

theorem decodeSequencer_of_ne {sel : Sel} (hstep : sel ≠ 0b010#3) (hfinish : sel ≠ 0b011#3) :
    decodeSequencer sel = .error .noLoaderStep := by
  simp [decodeSequencer, hstep, hfinish]

/-- Outside BUSY the loader agent has no step. -/
theorem decodeSequencer_sel_of_not_busy (hp : s.phase ≠ .busy) : decodeSequencer s.sel = .error .noLoaderStep :=
  decodeSequencer_of_ne (fun h => hp (sel_eq_step.1 h).1) (fun h => hp (sel_eq_finish.1 h).1)

/-- In BUSY the ROM has the expected length, so `at_end` compares `i` with it (R69, R109). -/
theorem LoaderInv.atEnd_iff_of_busy (h : LoaderInv s) (hp : s.phase = .busy) :
    s.atEnd = true ↔ s.i.toNat = 32 * s.plat.nRec := by
  obtain ⟨-, hdefect, -⟩ := h.ofBusy hp
  have hlen : s.plat.romLen = some (32 * s.plat.nRec) := by
    rw [defect_eq_none.1 hdefect, Platform.romLenExpected, Config.recBytes, Nat.mul_comm]
  rw [atEnd_iff, hlen, Option.some_inj, eq_comm]

theorem isCommand_build (op : CmdOp) (idx : Idx) : isCommand (op.build idx) = true := by
  cases op <;> rfl

/-- A command word decodes to an operation of the command port only (R65, R67). -/
theorem isCommand_of_decodeCommand {w : CmdWord} {i : Instr} (h : decodeCommand w = .ok i) : isCommand i = true := by
  unfold decodeCommand at h
  split at h
  · cases h
    exact isCommand_build ..
  · cases h

theorem decodeCommand_ne_of_not_isCommand {i : Instr} (hi : isCommand i = false) (w : CmdWord) :
    decodeCommand w ≠ .ok i := fun h => by
  rw [isCommand_of_decodeCommand h] at hi
  cases hi

/-- Settles O8: the port word is the encoding of the four limbs, and READ answers the entry as it is stored. -/
theorem responsePortLayout : Obligations.ResponsePortLayout := by
  unfold Obligations.ResponsePortLayout
  exact ⟨fun _ _ _ _ => rfl, fun _ _ _ hp hidx he => execRead_of_stored hp hidx he,
    fun e _ hm => extractLsb'_fePort e hm⟩

/-- Settles O13: the selector is read off `phase` and `at_end`, and a command word decodes to commands only. -/
theorem selectorChoosesTheLoaderStep : Obligations.SelectorChoosesTheLoaderStep := by
  unfold Obligations.SelectorChoosesTheLoaderStep
  exact ⟨fun s => ⟨sel_eq_step, sel_eq_finish, loaderMove_of_step, loaderMove_of_finish,
      decodeSequencer_sel_of_not_busy, LoaderInv.atEnd_iff_of_busy⟩,
    fun sel => decodeSequencer_of_ne,
    fun w => ⟨decodeCommand_ne_of_not_isCommand rfl w, decodeCommand_ne_of_not_isCommand rfl w⟩⟩

end Sys2Proof.Machine
end

section
/-! PROOFS. Family 40_limb_deserializer.md: LE64 (R80, R81) and CHUNK (R82, R83). Both are read off one fact: a limb is
the low 64 bits of the number its bytes spell, and bit `k` of that number is bit `k mod 8` of byte `k div 8`. -/

namespace Sys2Proof

/-- Bit `k` of the number a byte sequence spells (R43). -/
theorem testBit_leNat (bytes : List Byte) (k : Nat) :
    (leNat bytes).testBit k = (bytes.getD (k / 8) 0).getLsbD (k % 8) := by
  induction bytes generalizing k with
  | nil => simp [leNat]
  | cons b rest ih =>
    rw [leNat, Nat.add_comm, show (256 : Nat) = 2 ^ 8 by rfl, Nat.testBit_two_pow_mul_add _ b.isLt]
    by_cases hk : k < 8
    · rw [if_pos hk, Nat.div_eq_of_lt hk, Nat.mod_eq_of_lt hk]
      rfl
    · have hdiv : k / 8 = (k - 8) / 8 + 1 := by omega
      have hmod : k % 8 = (k - 8) % 8 := by omega
      rw [if_neg hk, ih, hdiv, hmod, List.getD_cons_succ]

/-- The first `n` bytes spell the number modulo `256^n`. -/
theorem leNat_mod_eq_sum (bytes : List Byte) (n : Nat) :
    leNat bytes % 256 ^ n = ∑ k ∈ Finset.range n, (bytes.getD k 0).toNat * 2 ^ (8 * k) := by
  induction n generalizing bytes with
  | zero => simp [Nat.mod_one]
  | succ n ih =>
    cases bytes with
    | nil => simp [leNat]
    | cons b rest =>
      have hlow : (b.toNat + 256 * leNat rest) % 256 = b.toNat := by have := b.isLt; omega
      have hhigh : (b.toNat + 256 * leNat rest) / 256 = leNat rest := by have := b.isLt; omega
      rw [Finset.sum_range_succ', leNat, pow_succ', Nat.mod_mul, hlow, hhigh, ih, Finset.mul_sum, Nat.add_comm]
      congr 1
      · refine Finset.sum_congr rfl fun k _ => ?_
        rw [List.getD_cons_succ, Nat.mul_succ, pow_add]
        ring
      · simp

/-- The bytes of a word spell the word. -/
theorem ofNat_leNat_leBytes {n : Nat} (v : BitVec (8 * n)) :
    BitVec.ofNat (8 * n) (leNat (leBytes n v.toNat)) = v := by
  rw [leNat_leBytes, show (256 : Nat) = 2 ^ 8 by rfl, ← pow_mul, Nat.mod_eq_of_lt v.isLt, BitVec.ofNat_toNat,
    BitVec.setWidth_eq]

/-- A selection decodes to LE64 only with an operand of format LIMB, 8 bytes (R60, R81 (d)). -/
theorem length_of_decode_le64 {sel : Selection} {B : List Byte} (h : decode sel = .ok (.le64 B)) : B.length = 8 := by
  cases sel with
  | command w => exact absurd h (Machine.decodeCommand_ne_of_not_isCommand rfl w)
  | sequencer sel =>
    simp only [decode, decodeSequencer] at h
    split at h
    · cases h
    · split at h <;> cases h
  | datapath d =>
    cases d with
    | le64 v =>
      cases h
      exact length_leBytes ..
    | chunk w => cases h
    | fromraw w => cases h

end Sys2Proof

namespace Sys2Proof.Machine

variable {s : State} {B C : List Byte}

/-! ### Byte sequences -/

theorem eq_of_getD_eq {n : Nat} (hB : B.length = n) (hC : C.length = n) (h : ∀ k < n, B.getD k 0 = C.getD k 0) :
    B = C := by
  refine List.ext_getElem (hB.trans hC.symm) fun k hkB hkC => ?_
  have hk := h k (hB ▸ hkB)
  rwa [List.getD_eq_getElem _ _ hkB, List.getD_eq_getElem _ _ hkC] at hk

theorem getD_flipBit {n : Nat} (hn : n < C.length) (t k : Nat) :
    (flipBit C n t).getD k 0 = if n = k then C.getD k 0 ^^^ (1#8 <<< t) else C.getD k 0 := by
  simp only [flipBit, List.getD, List.getElem?_modify]
  split
  · next h =>
    subst h
    simp [List.getElem?_eq_getElem hn]
  · simp

/-- A one shifted up to bit `i` has bit `i` and no other. -/
theorem getLsbD_one_shiftLeft {w i k : Nat} (hk : k < w) : (1#w <<< i).getLsbD k = decide (k = i) := by
  have hbit : (i < w ∧ i = k) ↔ k = i := by omega
  rw [← BitVec.twoPow_eq, BitVec.getLsbD_twoPow, ← Bool.decide_and, decide_eq_decide.2 hbit]

/-- Flipping bit `t` of byte `n` changes that bit of that byte and no other. -/
theorem getLsbD_getD_flipBit {n t : Nat} (hn : n < C.length) (k : Nat) {b : Nat} (hb : b < 8) :
    ((flipBit C n t).getD k 0).getLsbD b = ((C.getD k 0).getLsbD b ^^ decide (k = n ∧ b = t)) := by
  rw [getD_flipBit hn]
  by_cases hk : n = k
  · simp [hk, getLsbD_one_shiftLeft hb]
  · simp [hk, Ne.symm hk]

/-! ### LE64 (R80, R81) -/

theorem exec_le64_of_length (h : B.length = 8) : exec (.le64 B) s = .next { s with out := .limb (le64 B) } :=
  if_pos h

/-- LE64 gives the low 64 bits of the number the bytes spell (R43, R80). -/
theorem le64_eq_ofNat_leNat (B : List Byte) : le64 B = BitVec.ofNat 64 (leNat B) := by
  refine BitVec.eq_of_getLsbD_eq fun k hk => ?_
  rw [le64_getLsbD B k hk, BitVec.getLsbD_ofNat, testBit_leNat, decide_eq_true hk, Bool.true_and]

theorem le64_toNat (B : List Byte) : (le64 B).toNat = leSum (fun n => B.getD n 0) 0 := by
  rw [le64_eq_ofNat_leNat, BitVec.toNat_ofNat, show 2 ^ 64 = 256 ^ 8 by rfl, leNat_mod_eq_sum]
  simp only [leSum, Nat.zero_add]

/-- The bytes of a limb in format LIMB are an operand that decodes to it (R81 (a)). -/
theorem le64_leBytes (v : Limb) : le64 (leBytes 8 v.toNat) = v := by
  rw [le64_eq_ofNat_leNat]
  exact ofNat_leNat_leBytes (n := 8) v

/-- Byte `n` is the field of bits `8n+7` to `8n` (R81 (a)). -/
theorem getD_eq_extractLsb'_le64 (B : List Byte) {n : Nat} (hn : n < 8) :
    B.getD n 0 = (le64 B).extractLsb' (8 * n) 8 := by
  refine BitVec.eq_of_getLsbD_eq fun b hb => ?_
  rw [BitVec.getLsbD_extractLsb', le64_getLsbD B _ (by omega), Nat.mul_add_div (by omega), Nat.mul_add_mod,
    Nat.div_eq_of_lt hb, Nat.mod_eq_of_lt hb, decide_eq_true hb, Bool.true_and, Nat.add_zero]

theorem le64_injective_of_length (hB : B.length = 8) (hC : C.length = 8) (h : le64 B = le64 C) : B = C :=
  eq_of_getD_eq hB hC fun n hn => by rw [getD_eq_extractLsb'_le64 B hn, getD_eq_extractLsb'_le64 C hn, h]

theorem existsUnique_le64_eq (v : Limb) : ∃! B : List Byte, B.length = 8 ∧ le64 B = v :=
  ⟨leBytes 8 v.toNat, ⟨length_leBytes .., le64_leBytes v⟩, fun _ ⟨hlen, hB⟩ =>
    le64_injective_of_length hlen (length_leBytes ..) (hB.trans (le64_leBytes v).symm)⟩

theorem le64_flipBit {n t : Nat} (hn : n < B.length) (ht : t < 8) :
    le64 (flipBit B n t) = le64 B ^^^ (1#64 <<< (8 * n + t)) := by
  refine BitVec.eq_of_getLsbD_eq fun k hk => ?_
  have hbit : (k / 8 = n ∧ k % 8 = t) ↔ k = 8 * n + t := by omega
  rw [BitVec.getLsbD_xor, le64_getLsbD _ k hk, le64_getLsbD B k hk, getLsbD_getD_flipBit hn _ (Nat.mod_lt _ (by omega)),
    getLsbD_one_shiftLeft hk, decide_eq_decide.2 hbit]

theorem length_slice_of_le {m n : Nat} (h : n ≤ C.length) : (slice C m n).length = n - m := by
  simp only [slice, List.length_take, List.length_drop]
  omega

/-- Settles O1: the limb is the low 64 bits of the number the bytes spell, which is that sum. -/
theorem le64IsLittleEndianSum : Obligations.Le64IsLittleEndianSum := by
  unfold Obligations.Le64IsLittleEndianSum
  exact fun B s hlen => ⟨le64_toNat B, le64_toNat B ▸ (le64 B).isLt, exec_le64_of_length hlen⟩

/-- Settles O2: every byte is a field of the limb, so LE64 is injective; (b) holds bit by bit, and (c) is injectivity at
the reversed string. -/
theorem le64Laws : Obligations.Le64Laws := by
  unfold Obligations.Le64Laws
  refine ⟨existsUnique_le64_eq, fun B _ n hn => getD_eq_extractLsb'_le64 B hn,
    fun B hlen n hn t ht => le64_flipBit (by omega) ht, fun B hlen hne heq => hne ?_,
    fun sel B => length_of_decode_le64, fun C hlen m hm => ?_⟩
  · exact le64_injective_of_length (by rwa [List.length_reverse]) hlen heq
  · rw [length_slice_of_le (by omega), Nat.add_sub_cancel_left]

/-! ### CHUNK (R82, R83) -/

theorem exec_chunk_of_length (h : C.length = 32) : exec (.chunk C) s = .next { s with out := .limbs (chunk C) } :=
  if_pos h

/-- Limb `m` is LE64 of bytes `8m` to `8m+7` (R82). -/
theorem limbNo_chunk_eq_le64_slice (C : List Byte) {m : Nat} (hm : m < 4) :
    limbNo (chunk C) m = le64 (slice C (8 * m) (8 * m + 8)) := by
  match m, hm with
  | 0, _ => rfl
  | 1, _ => rfl
  | 2, _ => rfl
  | 3, _ => rfl

/-- Byte `n` of a record is byte `n mod 8` of limb `n div 8`. -/
theorem getD_eq_extractLsb'_limbNo_chunk (C : List Byte) {n : Nat} (hn : n < 32) :
    C.getD n 0 = (limbNo (chunk C) (n / 8)).extractLsb' (8 * (n % 8)) 8 := by
  rw [limbNo_chunk_eq_le64_slice C (by omega), ← getD_eq_extractLsb'_le64 _ (Nat.mod_lt n (by omega)),
    getD_slice C _ _ _ (by omega), Nat.div_add_mod]

theorem limbNo_chunk_toNat (C : List Byte) {m : Nat} (hm : m < 4) :
    (limbNo (chunk C) m).toNat = leSum (fun n => C.getD n 0) (8 * m) := by
  rw [limbNo_chunk_eq_le64_slice C hm, le64_toNat]
  refine Finset.sum_congr rfl fun n hn => ?_
  have hlt : n < 8 * m + 8 - 8 * m := by
    have := Finset.mem_range.1 hn
    omega
  simp only [Nat.zero_add, getD_slice C _ _ n hlt]

/-- Limb `m` is bits `64m+63` to `64m` of the record read as one little-endian integer (R83 (c)). -/
theorem limbNo_chunk_eq_extractLsb' (C : List Byte) {m : Nat} (hm : m < 4) :
    limbNo (chunk C) m = (BitVec.ofNat 256 (leNat C)).extractLsb' (64 * m) 64 := by
  refine BitVec.eq_of_getLsbD_eq fun k hk => ?_
  have hdiv : (64 * m + k) / 8 = 8 * m + k / 8 := by omega
  have hmod : (64 * m + k) % 8 = k % 8 := by omega
  have hlt : 64 * m + k < 256 := by omega
  rw [limbNo_chunk_getLsbD C m k hm hk, BitVec.getLsbD_extractLsb', BitVec.getLsbD_ofNat, testBit_leNat, hdiv, hmod,
    decide_eq_true hk, decide_eq_true hlt, Bool.true_and, Bool.true_and]

theorem eq_of_limbNo_eq {l l' : Limbs} (h : ∀ m < 4, limbNo l m = limbNo l' m) : l = l' := by
  cases l
  cases l'
  simp only [Limbs.mk.injEq]
  exact ⟨h 0 (by omega), h 1 (by omega), h 2 (by omega), h 3 (by omega)⟩

/-- The 32 bytes of four limbs, those of their word in format REC (R61, R63). -/
def recordBytes (l : Limbs) : List Byte := leBytes 32 (fePort (fromRaw l.a l.b l.c l.d)).toNat

/-- CHUNK takes the record of four limbs apart again (R83 (a)). -/
theorem chunk_recordBytes (l : Limbs) : chunk (recordBytes l) = l := by
  have hword : BitVec.ofNat 256 (leNat (recordBytes l)) = fePort (fromRaw l.a l.b l.c l.d) :=
    ofNat_leNat_leBytes (n := 32) _
  refine eq_of_limbNo_eq fun m hm => ?_
  rw [limbNo_chunk_eq_extractLsb' _ hm, hword, extractLsb'_fePort _ hm]
  rfl

theorem chunk_injective_of_length (hB : B.length = 32) (hC : C.length = 32) (h : chunk B = chunk C) : B = C := by
  refine eq_of_getD_eq hB hC fun n hn => ?_
  rw [getD_eq_extractLsb'_limbNo_chunk B hn, getD_eq_extractLsb'_limbNo_chunk C hn, h]

theorem existsUnique_chunk_eq (l : Limbs) : ∃! C : List Byte, C.length = 32 ∧ chunk C = l :=
  ⟨recordBytes l, ⟨length_leBytes .., chunk_recordBytes l⟩, fun _ ⟨hlen, hC⟩ =>
    chunk_injective_of_length hlen (length_leBytes ..) (hC.trans (chunk_recordBytes l).symm)⟩

/-- Flipping bit `t` of byte `n` changes one bit of the four limbs (R83 (b)). -/
theorem limbNo_chunk_flipBit_getLsbD {n t m k : Nat} (hn : n < C.length) (ht : t < 8) (hm : m < 4) (hk : k < 64) :
    (limbNo (chunk (flipBit C n t)) m).getLsbD k
      = ((limbNo (chunk C) m).getLsbD k ^^ decide (m = n / 8 ∧ k = 8 * (n % 8) + t)) := by
  have hbit : (8 * m + k / 8 = n ∧ k % 8 = t) ↔ (m = n / 8 ∧ k = 8 * (n % 8) + t) := by omega
  rw [limbNo_chunk_getLsbD _ m k hm hk, limbNo_chunk_getLsbD C m k hm hk,
    getLsbD_getD_flipBit hn _ (Nat.mod_lt _ (by omega)), decide_eq_decide.2 hbit]

theorem limbNo_chunk_flipBit {n t m : Nat} (hn : n < C.length) (ht : t < 8) (hm : m < 4) :
    limbNo (chunk (flipBit C n t)) m
      = if m = n / 8 then limbNo (chunk C) m ^^^ (1#64 <<< (8 * (n % 8) + t)) else limbNo (chunk C) m := by
  refine BitVec.eq_of_getLsbD_eq fun k hk => ?_
  rw [limbNo_chunk_flipBit_getLsbD hn ht hm hk]
  split
  · next hlimb => simp [hlimb, getLsbD_one_shiftLeft hk]
  · next hlimb => simp [hlimb]

/-- Settles O3: each limb is LE64 of its eight bytes, and LE64 is their sum. -/
theorem chunkIsFourLimbsInOrder : Obligations.ChunkIsFourLimbsInOrder := by
  unfold Obligations.ChunkIsFourLimbsInOrder
  exact fun C s hlen => ⟨fun m hm => limbNo_chunk_toNat C hm, exec_chunk_of_length hlen⟩

/-- Settles O4: four limbs come from the bytes of their word in format REC alone; (b) and (c) hold bit by bit. -/
theorem chunkLaws : Obligations.ChunkLaws := by
  unfold Obligations.ChunkLaws
  exact ⟨existsUnique_chunk_eq, fun C hlen n hn t ht m hm => limbNo_chunk_flipBit (by omega) ht hm,
    fun C _ m hm => limbNo_chunk_eq_extractLsb' C hm, by decide, by decide⟩

end Sys2Proof.Machine
end

section
/-! PROOFS. Family 41_field_constructor.md: FROMRAW (R90, R93). It only renames the four limbs, so what R83 says of CHUNK
holds of the element that is built from a record. -/

namespace Sys2Proof.Machine

variable {s t : State} {a b c d : Limb}

/-! ### FROMRAW alone -/

theorem exec_fromraw (a b c d : Limb) (s : State) :
    exec (.fromraw a b c d) s = .next { s with out := .element { l0 := a, l1 := b, l2 := c, l3 := d } } := rfl

/-- What FROMRAW delivers is read off its operands alone. -/
theorem out_of_exec_fromraw (h : exec (.fromraw a b c d) s = .next t) : t.out = .element (fromRaw a b c d) := by
  cases (exec_fromraw a b c d s).symm.trans h
  rfl

/-- The four limbs of an element, in order. -/
def feLimbs (e : FE) : Limbs := ⟨e.l0, e.l1, e.l2, e.l3⟩

/-- FROMRAW is undone by reading the four limbs off the element (R93 (a)). -/
theorem fromRaw_bijective : Function.Bijective fun l : Limbs => fromRaw l.a l.b l.c l.d :=
  Function.bijective_iff_has_inverse.2 ⟨feLimbs, fun _ => rfl, fun _ => rfl⟩

/-! ### FROMRAW after CHUNK -/

theorem elementOf_eq_iff {C : List Byte} {e : FE} : elementOf C = e ↔ chunk C = feLimbs e :=
  fromRaw_bijective.injective.eq_iff (a := chunk C) (b := feLimbs e)

theorem existsUnique_elementOf_eq (e : FE) : ∃! C : List Byte, C.length = 32 ∧ elementOf C = e := by
  simpa only [elementOf_eq_iff] using existsUnique_chunk_eq (feLimbs e)

/-- Flipping bit `t` of byte `n` of a record changes one bit of the element (R93 (b)). -/
theorem feLimb_elementOf_flipBit_getLsbD {C : List Byte} {n t m k : Nat} (hn : n < C.length) (ht : t < 8) (hm : m < 4)
    (hk : k < 64) :
    (feLimb (elementOf (flipBit C n t)) m).getLsbD k
      = ((feLimb (elementOf C) m).getLsbD k ^^ decide (m = n / 8 ∧ k = 8 * (n % 8) + t)) := by
  rw [feLimb_elementOf, feLimb_elementOf, limbNo_chunk_flipBit_getLsbD hn ht hm hk]

/-- Settles O6: FROMRAW has one case, and it answers the limbs as they are. -/
theorem fromrawKeepsTheLimbs : Obligations.FromrawKeepsTheLimbs := by
  unfold Obligations.FromrawKeepsTheLimbs
  exact exec_fromraw

/-- Settles O7: FROMRAW is undone by `feLimbs`, so the laws of CHUNK carry over to the element. -/
theorem recordToElementLaws : Obligations.RecordToElementLaws := by
  unfold Obligations.RecordToElementLaws
  refine ⟨fromRaw_bijective, existsUnique_elementOf_eq, fun C hlen n hn t ht m hm k hk => ?_,
    fun a b c d s s' t t' h h' => ?_, by decide⟩
  · exact feLimb_elementOf_flipBit_getLsbD (hlen ▸ hn) ht hm hk
  · rw [out_of_exec_fromraw h, out_of_exec_fromraw h']

end Sys2Proof.Machine
end

section
/-! PROOFS. Family 42_table_loader.md: the invariants (R109). A build in progress is described once: in BUSY entry `j`
is decoded while `j < N_REC`, and at `j = N_REC` the table is published. Each transition keeps the invariants, so by
the inversion lemmas `exec_next` and `step_next` every operation and every step does. -/

namespace Sys2Proof.Machine

variable {s t u : State}

/-! ### The resource-shape defect and the first use, by ROM length (R100) -/

theorem defect_of_romLen_eq {p : Platform} (h : p.romLen = some (32 * p.nRec)) : p.defect = none :=
  defect_eq_none.2 (h.trans (by rw [romLenExpected_eq]))

theorem defect_of_romLen_ne {p : Platform} (h : p.romLen ≠ some (32 * p.nRec)) :
    p.defect = some (if p.romLen = none then .resMissing else .resLength) := by
  unfold Platform.defect
  rw [romLenExpected_eq]
  cases hlen : p.romLen with
  | none => rfl
  | some len =>
    have hne : len ≠ 32 * p.nRec := fun heq => h (hlen.trans (congrArg some heq))
    simp [hne]

theorem firstUse_of_missing (hlen : s.plat.romLen = none) (f : State → State) :
    s.firstUse f = s.takeResourceShape .resMissing := by
  rw [firstUse_of_defect (defect_of_romLen_ne (by simp [hlen])), if_pos hlen]

theorem firstUse_of_length_eq (hlen : s.plat.romLen = some (32 * s.plat.nRec)) (f : State → State) :
    s.firstUse f = f s.beginBuild :=
  firstUse_of_none (defect_of_romLen_eq hlen) f

theorem firstUse_of_length_ne {len : Nat} (hlen : s.plat.romLen = some len) (hne : len ≠ 32 * s.plat.nRec)
    (f : State → State) : s.firstUse f = s.takeResourceShape .resLength := by
  rw [firstUse_of_defect (defect_of_romLen_ne (by simp [hlen, hne])), if_neg (by simp [hlen])]

/-! ### A build in progress (R102, R109 (I1)) -/

theorem LoaderInv.romLen_of_busy (h : LoaderInv s) (hp : s.phase = .busy) :
    s.plat.romLen = some (32 * s.plat.nRec) := by
  obtain ⟨-, hdefect, -⟩ := h.ofBusy hp
  rw [defect_eq_none.1 hdefect, romLenExpected_eq]

theorem LoaderInv.i_of_busy (h : LoaderInv s) (hp : s.phase = .busy) : s.i.toNat = 32 * s.j.toNat := by
  obtain ⟨-, -, -, hi, -⟩ := h.ofBusy hp
  exact hi

theorem LoaderInv.table_get_of_busy (h : LoaderInv s) (hp : s.phase = .busy) (m : Nat) :
    s.table.get m = if m < s.j.toNat then some (decodeRecord s.plat.rom m) else none := by
  obtain ⟨-, -, -, -, -, htable⟩ := h.ofBusy hp
  exact htable m

theorem LoaderInv.sel_of_j_lt (h : LoaderInv s) (hp : s.phase = .busy) (hj : s.j.toNat < s.plat.nRec) :
    s.sel = 0b010#3 := by
  have hi := h.i_of_busy hp
  refine sel_eq_step.2 ⟨hp, fun hend => ?_⟩
  have := (h.atEnd_iff_of_busy hp).1 (atEnd_iff.2 hend)
  omega

theorem LoaderInv.sel_of_j_eq (h : LoaderInv s) (hp : s.phase = .busy) (hj : s.j.toNat = s.plat.nRec) :
    s.sel = 0b011#3 := by
  refine sel_eq_finish.2 ⟨hp, atEnd_iff.1 ((h.atEnd_iff_of_busy hp).2 ?_)⟩
  rw [h.i_of_busy hp, hj]

/-- The chunk at `i` is record `j` (R102, R107). -/
theorem LoaderInv.elementOf_bytes_of_busy (h : LoaderInv s) (hp : s.phase = .busy) :
    elementOf (s.plat.rom.bytes s.i.toNat Config.recBytes) = decodeRecord s.plat.rom s.j.toNat := by
  rw [h.i_of_busy hp]
  rfl

/-- In BUSY before the end of the ROM, STEP stores the decoded record `j`. -/
theorem LoaderInv.exec_step_of_j_lt (h : LoaderInv s) (hp : s.phase = .busy) (hj : s.j.toNat < s.plat.nRec) :
    exec .step s = .next (s.storeEntry (decodeRecord s.plat.rom s.j.toNat)) := by
  have hi := h.i_of_busy hp
  have hread : memRead s.plat s.i.toNat Config.recBytes = some (s.plat.rom.bytes s.i.toNat Config.recBytes) :=
    memRead_eq_some.2 ⟨_, h.romLen_of_busy hp, by unfold Config.recBytes; omega, rfl⟩
  rw [← h.elementOf_bytes_of_busy hp]
  exact execStep_of_selected (h.sel_of_j_lt hp hj) hread hj

theorem LoaderInv.exec_finish_of_j_eq (h : LoaderInv s) (hp : s.phase = .busy) (hj : s.j.toNat = s.plat.nRec) :
    exec .finish s = .next s.publish :=
  execFinish_of_selected (h.sel_of_j_eq hp hj)

/-- The byte cursor does not wrap: `32 * 960 < 2^15`. -/
theorem LoaderInv.i_storeEntry (h : LoaderInv s) (hp : s.phase = .busy) (hj : s.j.toNat < s.plat.nRec) (e : FE) :
    (s.storeEntry e).i.toNat = s.i.toNat + 32 := by
  have hi := h.i_of_busy hp
  have hn := h.nRec_le
  rw [State.storeEntry_i, BitVec.toNat_add, Config.recBytes, BitVec.toNat_ofNat]
  omega

/-- The index cursor does not wrap: `960 < 2^10`. -/
theorem LoaderInv.j_storeEntry (h : LoaderInv s) (hj : s.j.toNat < s.plat.nRec) (e : FE) :
    (s.storeEntry e).j.toNat = s.j.toNat + 1 := by
  have hn := h.nRec_le
  rw [State.storeEntry_j, BitVec.toNat_add, show (1 : BitVec 10).toNat = 1 from rfl]
  omega

/-! ### What the invariants do not look at -/

theorem phaseInv_of_cases (hu : s.phase = .unbuilt → UnbuiltInv s) (hb : s.phase = .busy → BusyInv s)
    (hr : s.phase = .ready → ReadyInv s) (hf : s.phase = .fault → FaultInv s) : PhaseInv s := by
  unfold PhaseInv
  split
  · exact hu ‹_›
  · exact hb ‹_›
  · exact hr ‹_›
  · exact hf ‹_›

theorem LoaderInv.emit (h : LoaderInv s) (o : Output) : LoaderInv (s.emit o) := ⟨h.plat, h.table, h.pending, h.phase⟩

theorem LoaderInv.advanced (h : LoaderInv s) : LoaderInv s.advanced := ⟨h.plat, h.table, h.pending, h.phase⟩

theorem LoaderInv.onBehalfOf (h : LoaderInv s) (a : AgentId) : LoaderInv (s.onBehalfOf a) :=
  ⟨h.plat, h.table, h.pending, h.phase⟩

/-- In BUSY and READY the held commands may be any. -/
theorem LoaderInv.withPending (h : LoaderInv s) {held : Pending} (hrise : Rising held)
    (hnone : s.phase = .unbuilt ∨ s.phase = .fault → held = []) : LoaderInv { s with pending := held } where
  plat := h.plat
  table := h.table
  pending := hrise
  phase := by
    refine phaseInv_of_cases (fun hp => ?_) h.ofBusy h.ofReady (fun hp => ?_)
    · obtain ⟨hmode, hcode, htable, -⟩ := h.ofUnbuilt hp
      exact ⟨hmode, hcode, htable, hnone (.inl hp)⟩
    · obtain ⟨hdefect, htable, -⟩ := h.ofFault hp
      exact ⟨hdefect, htable, hnone (.inr hp)⟩

theorem LoaderInv.pending_eq_nil (h : LoaderInv s) (hp : s.phase = .unbuilt ∨ s.phase = .fault) : s.pending = [] := by
  rcases hp with hp | hp
  · obtain ⟨-, -, -, hnone⟩ := h.ofUnbuilt hp
    exact hnone
  · obtain ⟨-, -, hnone⟩ := h.ofFault hp
    exact hnone

theorem LoaderInv.takeHeld (h : LoaderInv s) (a : AgentId) : LoaderInv (s.takeHeld a) := by
  refine (h.withPending (rising_dropCell h.pending a) fun hp => ?_).onBehalfOf a
  rw [h.pending_eq_nil hp, dropCell]

theorem LoaderInv.hold (h : LoaderInv s) (hp : s.phase = .busy) (g : Gated) : LoaderInv (s.hold g) := by
  refine (h.withPending (rising_setCell h.pending s.requester g) fun hnot => ?_).emit .silent
  simp [hp] at hnot

/-! ### The transitions keep the invariants (R109) -/

theorem LoaderInv.takeResourceShape (h : LoaderInv s) (hp : s.phase = .unbuilt) {c : FCode}
    (hd : s.plat.defect = some c) : LoaderInv (s.takeResourceShape c) := by
  obtain ⟨-, -, htable, hpending⟩ := h.ofUnbuilt hp
  exact ⟨h.plat, h.table, h.pending, show FaultInv _ from ⟨hd, htable, hpending⟩⟩

theorem LoaderInv.beginBuild (h : LoaderInv s) (hp : s.phase = .unbuilt) (hd : s.plat.defect = none) :
    LoaderInv s.beginBuild := by
  obtain ⟨hmode, hcode, htable, -⟩ := h.ofUnbuilt hp
  refine ⟨h.plat, h.table, h.pending, show BusyInv _ from ⟨hmode, hd, hcode, rfl, Nat.zero_le _, fun m => ?_⟩⟩
  rw [State.beginBuild_table, htable]
  rfl

theorem LoaderInv.storeEntry (h : LoaderInv s) (hp : s.phase = .busy) (hj : s.j.toNat < s.plat.nRec) :
    LoaderInv (s.storeEntry (decodeRecord s.plat.rom s.j.toNat)) := by
  have hi := h.i_of_busy hp
  have hinext := h.i_storeEntry hp hj (decodeRecord s.plat.rom s.j.toNat)
  have hjnext := h.j_storeEntry hj (decodeRecord s.plat.rom s.j.toNat)
  obtain ⟨hmode, hdefect, hcode, -⟩ := h.ofBusy hp
  refine ⟨h.plat, Table.wf_set h.table hj _, h.pending,
    phaseInv_of_cases (by simp [hp]) (fun _ => ⟨hmode, hdefect, hcode, ?_, ?_, fun m => ?_⟩) (by simp [hp])
      (by simp [hp])⟩
  · rw [hinext, hjnext, Config.recBytes]
    omega
  · rw [hjnext]
    exact hj
  · rw [hjnext, State.storeEntry_table, State.storeEntry_plat, Table.get_set, h.table_get_of_busy hp]
    split
    · next heq => rw [if_pos (by omega), heq]
    · next hne =>
      have hlt : m < s.j.toNat + 1 ↔ m < s.j.toNat := by omega
      simp only [hlt]

theorem LoaderInv.publish (h : LoaderInv s) (hp : s.phase = .busy) (hj : s.j.toNat = s.plat.nRec) :
    LoaderInv s.publish := by
  obtain ⟨-, hdefect, hcode, hi, -, htable⟩ := h.ofBusy hp
  rw [hj] at hi htable
  exact ⟨h.plat, h.table, h.pending, show ReadyInv _ from ⟨hdefect, hcode, hi.trans (Nat.mul_comm ..), hj, htable⟩⟩

theorem loaderInv_cleared (hplat : s.plat.wf) (hmode : s.plat.buildMode = .lazyBuild) : LoaderInv s.cleared :=
  ⟨hplat, ⟨.nil, by simp⟩, .nil, show UnbuiltInv _ from ⟨hmode, rfl, rfl, rfl⟩⟩

theorem loaderInv_prebuiltReady (hplat : s.plat.wf) (hd : s.plat.defect = none) : LoaderInv s.prebuiltReady := by
  have hn : s.plat.nRec ≤ 960 := hplat.1
  refine ⟨hplat, Table.wf_filled .., .nil, show ReadyInv _ from ⟨hd, rfl, ?_, ?_, fun m => Table.get_filled ..⟩⟩
  · rw [State.prebuiltReady_i, State.prebuiltReady_plat, BitVec.toNat_ofNat, romLenExpected_eq]
    omega
  · rw [State.prebuiltReady_j, State.prebuiltReady_plat, BitVec.toNat_ofNat]
    omega

/-- RESET leaves a state that meets the invariants, whatever state it finds (R150, R151). -/
theorem loaderInv_takeReset (hplat : s.plat.wf) : LoaderInv s.takeReset := by
  unfold State.takeReset
  split
  · next hmode => exact loaderInv_cleared hplat hmode
  · split
    · next hd => exact loaderInv_prebuiltReady hplat hd
    · next c hd => exact ⟨hplat, ⟨.nil, by simp⟩, .nil, show FaultInv _ from ⟨hd, rfl, rfl⟩⟩

/-- Whatever an operation does, the invariants are kept. -/
theorem LoaderInv.of_effect {i : Instr} (h : LoaderInv s) (heff : Effect i s t) : LoaderInv t := by
  cases heff with
  | delivered o _ => exact h.emit o
  | readAnswer idx e _ _ _ _ => exact h.emit _
  | held g _ hp => exact h.hold hp g
  | faulted c hp hd => exact h.takeResourceShape hp hd
  | begun hp hd => exact (h.beginBuild hp hd).emit _
  | begunHeld g _ hp hd => exact (h.beginBuild hp hd).hold rfl g
  | stored C _ hsel hj hC =>
    obtain ⟨hp, -⟩ := sel_eq_step.1 hsel
    obtain ⟨-, -, -, rfl⟩ := memRead_eq_some.1 hC
    rw [h.elementOf_bytes_of_busy hp]
    exact h.storeEntry hp hj
  | published _ hsel =>
    obtain ⟨hp, hend⟩ := sel_eq_finish.1 hsel
    have hi := h.i_of_busy hp
    have := (h.atEnd_iff_of_busy hp).1 (atEnd_iff.2 hend)
    exact h.publish hp (by omega)

theorem LoaderInv.of_exec {i : Instr} (h : LoaderInv s) (hx : exec i s = .next t) : LoaderInv t :=
  h.of_effect (exec_next hx)

theorem LoaderInv.of_step (h : LoaderInv s) (hstep : step s = .next t) : LoaderInv t := by
  cases step_next hstep with
  | reset _ => exact loaderInv_takeReset h.plat
  | idle => exact h.advanced.emit _
  | illegal a => exact (h.advanced.onBehalfOf a).emit _
  | loader i _ _ hx => exact h.advanced.of_exec hx
  | datapath d _ hx => exact h.advanced.of_exec hx
  | command a w i _ _ _ _ hx => exact (h.advanced.onBehalfOf a).of_exec hx
  | lifted a g _ _ _ hx => exact (h.advanced.takeHeld a).of_exec hx

/-! ### The moves of `phase` (R109 (I5)) -/

/-- An operation moves `phase` only forward. -/
theorem phaseMove_of_effect {i : Instr} (h : Effect i s t) : PhaseMove s.phase t.phase := by
  cases h with
  | delivered o _ => exact .stay _
  | readAnswer idx e _ _ _ _ => exact .stay _
  | held g _ _ => exact .stay _
  | faulted c hp _ => exact hp ▸ .defect
  | begun hp _ => exact hp ▸ .start
  | begunHeld g _ hp _ => exact hp ▸ .start
  | stored C _ _ _ _ => exact .stay _
  | published _ hsel => exact (sel_eq_finish.1 hsel).1 ▸ .publish

/-- A step that is no RESET moves `phase` only forward, from every state. -/
theorem phaseMove_of_step (hreset : ¬ s.resetNext) (hstep : step s = .next t) : PhaseMove s.phase t.phase := by
  cases step_next hstep with
  | reset hs => exact absurd hs hreset
  | idle => exact .stay _
  | illegal a => exact .stay _
  | loader i _ _ hx => exact (phaseMove_of_effect (exec_next hx) :)
  | datapath d _ hx => exact (phaseMove_of_effect (exec_next hx) :)
  | command a w i _ _ _ _ hx => exact (phaseMove_of_effect (exec_next hx) :)
  | lifted a g _ _ _ hx => exact (phaseMove_of_effect (exec_next hx) :)

/-- Settles O40: every transition keeps the clause of the phase it leads to, so every operation and every step does. -/
theorem everyStepKeepsTheInvariants : Obligations.EveryStepKeepsTheInvariants := by
  unfold Obligations.EveryStepKeepsTheInvariants
  exact fun s t h hstep => ⟨h.of_step hstep, fun hreset => phaseMove_of_step hreset hstep⟩

end Sys2Proof.Machine
end

section
/-! PROOFS. Family 42_table_loader.md: INIT, STEP, FINISH and READ (R100 to R104) and LOAD (R105), each from the lemmas
on a build in progress; what holds until a RESET is carried along a run by `run_induction`. -/

namespace Sys2Proof.Machine

variable {s t u : State}

/-! ### INIT (R100, R101) -/

theorem exec_init_of_unbuilt (hp : s.phase = .unbuilt) :
    exec .init s = .next (s.firstUse fun t => t.answer .ok .noData) := by
  simp [exec, execInit, hp]

theorem exec_init_of_begun (hp : s.phase = .busy ∨ s.phase = .ready) :
    exec .init s = .next (s.answer .ok .noData) := by
  rcases hp with hp | hp <;> simp [exec, execInit, hp]

theorem exec_init_of_fault (hp : s.phase = .fault) : exec .init s = .next s.raiseAgain := by
  simp [exec, execInit, hp]

/-- Once the build has begun or the fault is taken, INIT changes nothing but what is delivered. -/
theorem exec_init_of_ne_unbuilt (hp : s.phase ≠ .unbuilt) : ∃ o, exec .init s = .next (s.emit o) := by
  cases hphase : s.phase with
  | unbuilt => exact absurd hphase hp
  | busy => exact ⟨_, exec_init_of_begun (.inl hphase)⟩
  | ready => exact ⟨_, exec_init_of_begun (.inr hphase)⟩
  | fault => exact ⟨_, exec_init_of_fault hphase⟩

/-- INIT always leaves UNBUILT. -/
theorem phase_ne_unbuilt_of_exec_init (h : exec .init s = .next t) : t.phase ≠ .unbuilt := by
  by_cases hp : s.phase = .unbuilt
  · cases (exec_init_of_unbuilt hp).symm.trans h
    cases hd : s.plat.defect with
    | none => simp [firstUse_of_none hd]
    | some c => simp [firstUse_of_defect hd]
  · obtain ⟨o, ho⟩ := exec_init_of_ne_unbuilt hp
    cases ho.symm.trans h
    exact hp

/-- Settles O9: each phase has its lemma, and in UNBUILT each ROM length says whether there is a defect. -/
theorem initTransition : Obligations.InitTransition := by
  unfold Obligations.InitTransition
  intro s
  split
  · next hp => exact exec_init_of_fault hp
  · next hp => exact exec_init_of_begun (.inl hp)
  · next hp => exact exec_init_of_begun (.inr hp)
  · next hp =>
    refine (exec_init_of_unbuilt hp).trans ?_
    split
    · next hlen => exact congrArg _ (firstUse_of_missing hlen _)
    · next len hlen =>
      split
      · next heq => exact congrArg _ (firstUse_of_length_eq (heq ▸ hlen) _)
      · next hne => exact congrArg _ (firstUse_of_length_ne hlen hne _)

/-- Settles O10: INIT leaves UNBUILT, and outside it only delivers. -/
theorem initIsIdempotent : Obligations.InitIsIdempotent := by
  unfold Obligations.InitIsIdempotent
  exact fun s => ⟨exec_init_of_begun, exec_init_of_fault,
    fun t h => exec_init_of_ne_unbuilt (phase_ne_unbuilt_of_exec_init h)⟩

/-! ### STEP (R102) -/

/-- Limb `m` of the element of 32 ROM bytes is the sum of its eight (R40, R43). -/
theorem feLimb_elementOf_bytes_toNat (rom : Memory) (addr : Nat) {m : Nat} (hm : m < 4) :
    (feLimb (elementOf (rom.bytes addr Config.recBytes)) m).toNat = leSum rom.read (addr + 8 * m) := by
  rw [feLimb_elementOf, limbNo_chunk_toNat _ hm]
  refine Finset.sum_congr rfl fun n hn => ?_
  have hlt : 8 * m + n < Config.recBytes := by
    have := Finset.mem_range.1 hn
    unfold Config.recBytes
    omega
  simp only [Memory.getD_bytes rom addr _ _ hlt, Nat.add_assoc]

/-- Settles O11: `i = 32 * j` makes the chunk at `i` record `j`, the first entry without a value. -/
theorem stepBuildsOneEntry : Obligations.StepBuildsOneEntry := by
  unfold Obligations.StepBuildsOneEntry
  intro s h hp hi
  have hij := h.i_of_busy hp
  have hj : s.j.toNat < s.plat.nRec := by omega
  have hempty : s.table.get s.j.toNat = none := by rw [h.table_get_of_busy hp, if_neg (Nat.lt_irrefl _)]
  refine ⟨by omega, hj, hempty, _, decodeRecord s.plat.rom s.j.toNat, h.exec_step_of_j_lt hp hj, fun m hm => ?_,
    fun k => ?_, h.i_storeEntry hp hj _, h.j_storeEntry hj _, rfl⟩
  · rw [← h.elementOf_bytes_of_busy hp]
    exact feLimb_elementOf_bytes_toNat s.plat.rom s.i.toNat hm
  · rw [State.storeEntry_table, Table.get_set]
    simp only [eq_comm]

/-! ### Runs without a RESET (R103) -/

/-- A run is a first step and the rest (Host.Core.run). -/
theorem run_succ_next {n : Nat} (h : core.run (n + 1) s = .next u) :
    ∃ t, step s = .next t ∧ core.run n t = .next u := by
  have key : ∀ (M : Host.Core) (v w : M.State), M.run (n + 1) v = .next w →
      ∃ x, M.step v = .next x ∧ M.run n x = .next w := by
    intro M v w hrun
    simp only [Host.Core.run] at hrun
    split at hrun
    · next x hx => exact ⟨x, hx, hrun⟩
    · cases hrun
    · cases hrun
  exact key core s u h

/-- What every step keeps, every run keeps. -/
theorem run_induction {P : State → Prop} (hstep : ∀ s t, P s → step s = .next t → P t) {n : Nat} (hs : P s)
    (h : core.run n s = .next u) : P u := by
  induction n generalizing s with
  | zero =>
    cases h
    exact hs
  | succ n ih =>
    obtain ⟨t, hst, htu⟩ := run_succ_next h
    exact ih (hstep s t hs hst) htu

theorem schedule_of_effect {i : Instr} (h : Effect i s t) : t.schedule = s.schedule := by
  cases h <;> rfl

theorem schedule_takeReset (s : State) : s.takeReset.schedule = s.schedule := by
  unfold State.takeReset
  split
  · rfl
  · split <;> rfl

/-- A step takes the head off the schedule and leaves the other moves. -/
theorem schedule_of_step (h : step s = .next t) : t.schedule = s.schedule.tail := by
  cases step_next h with
  | reset _ => exact schedule_takeReset s.advanced
  | idle => rfl
  | illegal a => rfl
  | loader i _ _ hx => exact (schedule_of_effect (exec_next hx) :)
  | datapath d _ hx => exact (schedule_of_effect (exec_next hx) :)
  | command a w i _ _ _ _ hx => exact (schedule_of_effect (exec_next hx) :)
  | lifted a g _ _ _ hx => exact (schedule_of_effect (exec_next hx) :)

theorem PhaseMove.eq_of_ready {p : Phase} (h : PhaseMove .ready p) : p = .ready := by
  cases h
  rfl

/-- READY, with no RESET among the moves to come. -/
def State.ReadyNoReset (s : State) : Prop := s.phase = .ready ∧ .reset ∉ s.schedule

theorem State.ReadyNoReset.of_step (h : s.ReadyNoReset) (hstep : step s = .next t) : t.ReadyNoReset := by
  obtain ⟨hp, hsched⟩ := h
  have hmove := phaseMove_of_step (fun hr => hsched (List.mem_of_head? hr)) hstep
  refine ⟨?_, fun hr => hsched (List.mem_of_mem_tail (schedule_of_step hstep ▸ hr))⟩
  exact (hp ▸ hmove).eq_of_ready

/-- Settles O12: at the end of the ROM `j = N_REC`, so the table is full; READY is left only by RESET. -/
theorem finishPublishesTheTable : Obligations.FinishPublishesTheTable := by
  unfold Obligations.FinishPublishesTheTable
  intro s h hp hi
  have hij := h.i_of_busy hp
  have hj : s.j.toNat = s.plat.nRec := by omega
  have hfinish := h.exec_finish_of_j_eq hp hj
  refine ⟨hj, fun m hm => ?_, hfinish, fun t ht => ?_⟩
  · rw [h.table_get_of_busy hp, if_pos (hj ▸ hm), Option.isSome_some]
  · cases hfinish.symm.trans ht
    refine ⟨rfl, fun n u hsched hrun => ?_⟩
    obtain ⟨hready, -⟩ : u.ReadyNoReset := run_induction (fun _ _ hv hst => hv.of_step hst) ⟨rfl, hsched⟩ hrun
    exact ⟨hready, decodeSequencer_sel_of_not_busy (by simp [hready])⟩

/-! ### READ (R104) -/

theorem LoaderInv.table_get_of_ready (h : LoaderInv s) (hp : s.phase = .ready) (m : Nat) :
    s.table.get m = if m < s.plat.nRec then some (decodeRecord s.plat.rom m) else none := by
  obtain ⟨-, -, -, -, htable⟩ := h.ofReady hp
  exact htable m

/-- Settles O16: the gate refuses the index first; in READY the entry is the decoded record, in UNBUILT each ROM length
says whether there is a defect. -/
theorem readTransition : Obligations.ReadTransition := by
  unfold Obligations.ReadTransition
  intro idx s h
  by_cases hidx : s.plat.nRec ≤ idx.toNat
  · have hgate : gateInRange (.read idx) s.plat.nRec = false := decide_eq_false (Nat.not_lt.2 hidx)
    rw [if_pos hidx]
    exact gated_of_outOfRange hgate _
  · have hlt : idx.toNat < s.plat.nRec := Nat.lt_of_not_le hidx
    have hgate : gateInRange (.read idx) s.plat.nRec = true := decide_eq_true hlt
    rw [if_neg hidx]
    split
    · next hp => exact execRead_of_stored hp hlt (by rw [h.table_get_of_ready hp, if_pos hlt])
    · next hp => exact gated_of_busy hgate hp _
    · next hp => exact gated_of_fault hgate hp _
    · next hp =>
      refine (gated_of_unbuilt hgate hp _).trans ?_
      split
      · next hlen => exact congrArg _ (firstUse_of_missing hlen _)
      · next len hlen =>
        split
        · next heq => exact congrArg _ (firstUse_of_length_eq (heq ▸ hlen) _)
        · next hne => exact congrArg _ (firstUse_of_length_ne hlen hne _)

/-! ### LOAD (R105) -/

theorem performAll_cons {i : Instr} {rest : List Instr} (h : exec i s = .next t) :
    performAll (i :: rest) s = performAll rest t := by simp [performAll, h]

/-- A walk over a list that finds a value at every element lists the values. -/
theorem mapM_eq_some_map {α β : Type} {f : α → Option β} {g : α → β} {l : List α} (h : ∀ a ∈ l, f a = some (g a)) :
    l.mapM f = some (l.map g) := by
  induction l with
  | nil => rfl
  | cons a rest ih =>
    rw [List.mapM_cons, h a List.mem_cons_self, ih fun b hb => h b (List.mem_cons_of_mem _ hb)]
    rfl

/-- In READY the whole-table view is the decoded table (R75, R107). -/
theorem LoaderInv.tableView_of_ready (h : LoaderInv s) (hp : s.phase = .ready) :
    s.tableView = some (decodeTable s.plat.rom s.plat.nRec) := by
  have hview : s.tableView = (List.range s.plat.nRec).mapM s.table.get := by simp [State.tableView, hp]
  refine hview.trans (mapM_eq_some_map fun m hm => ?_)
  rw [h.table_get_of_ready hp, if_pos (List.mem_range.1 hm)]

/-- `t` is `s` with its build finished: the invariants hold, and ROM and straps are those of `s`. -/
def BuildFinished (s t : State) : Prop := LoaderInv t ∧ t.phase = .ready ∧ t.plat = s.plat

/-- From BUSY the loader agent's moves are the STEPs that remain and FINISH, and they finish the build. -/
theorem LoaderInv.build_finishes (h : LoaderInv s) (hp : s.phase = .busy) {n : Nat} (hn : s.j.toNat + n = s.plat.nRec) :
    ∃ t, loaderRun (n + 1) s = .next t ∧ performAll (List.replicate n .step ++ [.finish]) s = .next t ∧
      BuildFinished s t := by
  have hen : s.loaderEnabled = true := by simp [State.loaderEnabled, hp]
  induction n generalizing s with
  | zero =>
    have hx := h.exec_finish_of_j_eq hp hn
    refine ⟨s.publish, ?_, performAll_cons hx, h.publish hp hn, rfl, rfl⟩
    exact loaderRun_of_next 0 hen ((loaderMove_of_finish (h.sel_of_j_eq hp hn)).trans hx)
  | succ n ih =>
    have hj : s.j.toNat < s.plat.nRec := by omega
    have hx := h.exec_step_of_j_lt hp hj
    have hjnext := h.j_storeEntry hj (decodeRecord s.plat.rom s.j.toNat)
    obtain ⟨t, hrun, hall, hfin⟩ := ih (h.storeEntry hp hj) hp (by rw [hjnext, State.storeEntry_plat]; omega) hen
    refine ⟨t, ?_, (performAll_cons hx).trans hall, hfin⟩
    exact (loaderRun_of_next _ hen ((loaderMove_of_step (h.sel_of_j_lt hp hj)).trans hx)).trans hrun

/-- Settles O50: with the right length INIT begins a build that the steps finish; with any other it faults, and the
loader agent has no step. -/
theorem loadBuildsTheWholeTable : Obligations.LoadBuildsTheWholeTable := by
  unfold Obligations.LoadBuildsTheWholeTable
  intro s h hp
  have hinit := exec_init_of_unbuilt hp
  refine ⟨fun hlen => ?_, fun hlen => ?_⟩
  · have hd := defect_of_romLen_eq hlen
    rw [firstUse_of_none hd] at hinit
    obtain ⟨t, hrun, hall, hinv, hready, hplat⟩ :=
      ((h.beginBuild hp hd).emit _).build_finishes (s := s.beginBuild.answer .ok .noData) rfl (Nat.zero_add _)
    obtain ⟨-, hcode, hi, hj, -⟩ := hinv.ofReady hready
    have hview := hinv.tableView_of_ready hready
    rw [hplat] at hi hj hview
    exact ⟨t, (load_of_next hinit).trans hrun, (performAll_cons hinit).trans hall, hready, hcode,
      hi.trans (romLenExpected_eq _), hj, hplat, hview⟩
  · rw [firstUse_of_defect (defect_of_romLen_ne hlen)] at hinit
    refine ⟨_, (load_of_next hinit).trans (loaderRun_of_not_enabled _ rfl), hinit, fun hsel => ?_, rfl⟩
    cases (sel_eq_step.1 hsel).1

end Sys2Proof.Machine
end

section
/-! PROOFS. Family 43_validation.md: the checks CHKLEN, CHKNZ and CHKRT (R120 to R122, R126), and what the table owes to
the ROM (R124, R125). The three checks differ in their READY arm alone, and there only in the verdict they answer. -/

namespace Sys2Proof.Machine

variable {s : State} {g : Gated} {idx : Idx} {e : FE}

/-! ### The verdict of a check and the gate it stands behind (R126) -/

/-- What a check answers in READY: PASS or FAIL, and no verdict where the entry it looks at holds no value. -/
def State.verdict (s : State) : Gated → Option Bool
  | .read _ => none
  | .chklen => some (decide (s.j.toNat = s.plat.nRec) && s.table.full s.plat.nRec)
  | .chknz idx => (s.table.get idx.toNat).map fun e => !feEq s.plat e (fieldZero s.plat.lib)
  | .chkrt idx => (s.table.get idx.toNat).map (roundTrips s.plat)

/-- A check is a test command behind the gate of READ, and in READY it answers its verdict. -/
theorem exec_check_eq_testOnly_gated (hg : ∀ idx, g ≠ .read idx) (s : State) :
    ∃ f, exec g.toInstr s = testOnly (gated g f) s ∧
      ∀ p, s.verdict g = some p → f s = .next (s.answer .ok (.check p)) := by
  cases g with
  | read idx => exact absurd rfl (hg idx)
  | chklen =>
    refine ⟨_, rfl, fun p hv => ?_⟩
    cases hv
    rfl
  | chknz idx =>
    refine ⟨_, rfl, fun p hv => ?_⟩
    obtain ⟨e, he, rfl⟩ := Option.map_eq_some_iff.1 hv
    exact fromEntry_of_some he _
  | chkrt idx =>
    refine ⟨_, rfl, fun p hv => ?_⟩
    obtain ⟨e, he, rfl⟩ := Option.map_eq_some_iff.1 hv
    exact fromEntry_of_some he _

theorem exec_check_of_not_testEn (hg : ∀ idx, g ≠ .read idx) (hen : s.plat.testEn = false) :
    exec g.toInstr s = .next (s.answer .errIllegal .noData) := by
  obtain ⟨f, hexec, -⟩ := exec_check_eq_testOnly_gated hg s
  rw [hexec, testOnly_of_false hen]

/-- With `TEST_EN` only the gate is left. -/
theorem exec_check_eq_gated (hg : ∀ idx, g ≠ .read idx) (hen : s.plat.testEn = true) :
    ∃ f, exec g.toInstr s = gated g f s ∧ ∀ p, s.verdict g = some p → f s = .next (s.answer .ok (.check p)) := by
  obtain ⟨f, hexec, hready⟩ := exec_check_eq_testOnly_gated hg s
  exact ⟨f, hexec.trans (testOnly_of_true hen _), hready⟩

theorem exec_check_of_outOfRange (hg : ∀ idx, g ≠ .read idx) (hen : s.plat.testEn = true)
    (hr : gateInRange g s.plat.nRec = false) : exec g.toInstr s = .next (s.answer .errIndex .noData) := by
  obtain ⟨f, hexec, -⟩ := exec_check_eq_gated hg hen
  rw [hexec, gated_of_outOfRange hr]

theorem exec_check_of_ready (hg : ∀ idx, g ≠ .read idx) (hen : s.plat.testEn = true)
    (hr : gateInRange g s.plat.nRec = true) (hp : s.phase = .ready) {p : Bool} (hv : s.verdict g = some p) :
    exec g.toInstr s = .next (s.answer .ok (.check p)) := by
  obtain ⟨f, hexec, hready⟩ := exec_check_eq_gated hg hen
  rw [hexec, gated_of_ready hr hp, hready p hv]

theorem exec_check_of_fault (hg : ∀ idx, g ≠ .read idx) (hen : s.plat.testEn = true)
    (hr : gateInRange g s.plat.nRec = true) (hp : s.phase = .fault) : exec g.toInstr s = .next s.raiseAgain := by
  obtain ⟨f, hexec, -⟩ := exec_check_eq_gated hg hen
  rw [hexec, gated_of_fault hr hp]

/-- A check has a verdict unless the entry it looks at holds no value. -/
theorem exists_verdict (hg : ∀ idx, g ≠ .read idx)
    (hentry : ∀ idx, g = .chknz idx ∨ g = .chkrt idx → (s.table.get idx.toNat).isSome = true) :
    ∃ p, s.verdict g = some p := by
  rw [← Option.isSome_iff_exists]
  cases g with
  | read idx => exact absurd rfl (hg idx)
  | chklen => rfl
  | chknz idx => exact Option.isSome_map.trans (hentry idx (.inl rfl))
  | chkrt idx => exact Option.isSome_map.trans (hentry idx (.inr rfl))

/-- Settles O17: a check with `TEST_EN` is the gate, so each arm is the gate's lemma for it. -/
theorem checksAreGatedLikeRead : Obligations.ChecksAreGatedLikeRead := by
  unfold Obligations.ChecksAreGatedLikeRead
  intro g s hen hg
  obtain ⟨f, hexec, -⟩ := exec_check_eq_gated hg hen
  refine ⟨exec_check_of_outOfRange hg hen, fun hr hp hentry => ?_, fun hr hp hlen => ?_, fun hr hp hlen => ?_,
    fun hr hp => hexec.trans (gated_of_busy hr hp f), exec_check_of_fault hg hen⟩
  · obtain ⟨p, hv⟩ := exists_verdict hg hentry
    exact ⟨p, exec_check_of_ready hg hen hr hp hv⟩
  · rw [hexec, gated_of_unbuilt hr hp, firstUse_of_length_eq hlen]
    rfl
  · rw [hexec, gated_of_unbuilt hr hp, firstUse_of_defect (defect_of_romLen_ne hlen)]
    rfl

/-! ### CHKLEN (R120) -/

theorem verdict_chklen_iff :
    s.verdict .chklen = some true ↔ s.j.toNat = s.plat.nRec ∧ ∀ m < s.plat.nRec, (s.table.get m).isSome = true := by
  rw [State.verdict, Option.some_inj, Bool.and_eq_true, decide_eq_true_iff, Table.full_iff]

/-- In READY the table is finished (R109 (I2)). -/
theorem LoaderInv.verdict_chklen (h : LoaderInv s) (hp : s.phase = .ready) : s.verdict .chklen = some true := by
  obtain ⟨-, -, -, hj, -⟩ := h.ofReady hp
  refine verdict_chklen_iff.2 ⟨hj, fun m hm => ?_⟩
  rw [h.table_get_of_ready hp, if_pos hm, Option.isSome_some]

theorem opField_cmdWord (op : BitVec 4) (idx : Idx) : opField (cmdWord op idx) = op := by
  unfold opField cmdWord
  refine BitVec.eq_of_getLsbD_eq fun k hk => ?_
  have hhigh : 12 + k - 10 = k + 2 := by omega
  rw [BitVec.getLsbD_extractLsb', BitVec.getLsbD_append, if_neg (by omega), hhigh, BitVec.getLsbD_append]
  simp [hk]

theorem rsvField_cmdWord (op : BitVec 4) (idx : Idx) : rsvField (cmdWord op idx) = 0 := by
  unfold rsvField cmdWord
  refine BitVec.eq_of_getLsbD_eq fun k hk => ?_
  rw [BitVec.getLsbD_extractLsb', BitVec.getLsbD_append, BitVec.getLsbD_append]
  simp [hk]

/-- A word built from a known operation number is refused only for its index (R70). -/
theorem rejectReason_cmdWord {op : BitVec 4} (h : opKnown op = true) (idx : Idx) :
    rejectReason (cmdWord op idx) = .indexNotZero := by
  simp [rejectReason, opField_cmdWord, rsvField_cmdWord, h]

/-- No row with a full mask has an index, and the rows with an index have other operation numbers (R67). -/
theorem find?_cmdRows_chklen (hidx : idx ≠ 0) : cmdRows.find? (fun r => r.selects (cmdWord 0x4 idx)) = none := by
  have hfull : ∀ p, idxField p = 0 → (cmdWord 0x4 idx == p) = false := fun p hp =>
    beq_eq_false_iff_ne.2 fun heq => hidx (by rw [← idxField_cmdWord 0x4 idx, heq, hp])
  simp +decide only [cmdRows, List.find?, selects_full, selects_indexed, hfull 0x1000#16 rfl,
    hfull 0x4000#16 rfl]

theorem decodeCommand_chklen_of_ne_zero (hidx : idx ≠ 0) :
    decodeCommand (cmdWord 0x4 idx) = .error .indexNotZero := by
  simp only [decodeCommand, find?_cmdRows_chklen hidx, rejectReason_cmdWord (op := 0x4) rfl]

/-- Settles O21: the verdict of CHKLEN is its condition, and the finished table meets it. -/
theorem chklenCountsTheEntries : Obligations.ChklenCountsTheEntries := by
  unfold Obligations.ChklenCountsTheEntries
  have hg : ∀ idx, Gated.chklen ≠ .read idx := nofun
  refine ⟨fun s hen => exec_check_of_not_testEn hg hen, fun idx => decodeCommand_chklen_of_ne_zero,
    fun s hen hp => exec_check_of_fault hg hen rfl hp, fun s hen hp => ⟨?_, fun h => ?_⟩⟩
  · exact ⟨_, Option.some_inj.symm.trans verdict_chklen_iff, exec_check_of_ready hg hen rfl hp rfl⟩
  · exact exec_check_of_ready hg hen rfl hp (h.verdict_chklen hp)

/-! ### CHKNZ (R121) -/

theorem or_limbs_eq_zero_iff : e.l0 ||| e.l1 ||| e.l2 ||| e.l3 = 0 ↔ e = zeroLimbs := by
  cases e
  simp [zeroLimbs, BitVec.or_eq_zero_iff, and_assoc]

theorem feEq_of_limbwise {p : Platform} (h : p.feEq = .limbwise) (x y : FE) : feEq p x y = decide (x = y) := by
  simp only [feEq, h]
  rfl

/-- Settles O22: the verdict of CHKNZ is `FeEq` negated, and limb-wise the or of the limbs. -/
theorem chknzComparesWithZero : Obligations.ChknzComparesWithZero := by
  unfold Obligations.ChknzComparesWithZero
  intro idx s
  have hg : ∀ idx', Gated.chknz idx ≠ .read idx' := nofun
  refine ⟨exec_check_of_not_testEn hg,
    fun hen hidx => exec_check_of_outOfRange hg hen (decide_eq_false (Nat.not_lt.2 hidx)),
    fun hen hidx => exec_check_of_fault hg hen (decide_eq_true hidx), fun e hen hidx hp he => ?_⟩
  have hv : s.verdict (.chknz idx) = some (!feEq s.plat e (fieldZero s.plat.lib)) := congrArg (Option.map _) he
  have hexec := exec_check_of_ready hg hen (decide_eq_true hidx) hp hv
  refine ⟨⟨_, by rw [Bool.not_eq_false'], hexec⟩, fun hlimbwise hzero => ?_⟩
  have hpass : (!feEq s.plat e (fieldZero s.plat.lib)) = decide (e.l0 ||| e.l1 ||| e.l2 ||| e.l3 ≠ 0) := by
    rw [feEq_of_limbwise hlimbwise, hzero, ← decide_not]
    exact decide_eq_decide.2 or_limbs_eq_zero_iff.not.symm
  rw [← hpass]
  exact hexec

/-! ### CHKRT (R122) -/

theorem roundTrips_iff {p : Platform} :
    roundTrips p e = true ↔ ∃ e', fieldDecode p.lib (fieldEncode p.lib e) = some e' ∧ feEq p e' e = true := by
  unfold roundTrips
  cases fieldDecode p.lib (fieldEncode p.lib e) with
  | none => simp
  | some e' => simp

theorem roundTrips_iff_of_limbwise {p : Platform} (h : p.feEq = .limbwise) :
    roundTrips p e = true ↔ fieldDecode p.lib (fieldEncode p.lib e) = some e := by
  simp only [roundTrips_iff, feEq_of_limbwise h, decide_eq_true_iff, exists_eq_right]

/-- Settles O23: the verdict of CHKRT is the round trip of the entry. -/
theorem chkrtRoundTrips : Obligations.ChkrtRoundTrips := by
  unfold Obligations.ChkrtRoundTrips
  intro idx s
  have hg : ∀ idx', Gated.chkrt idx ≠ .read idx' := nofun
  refine ⟨exec_check_of_not_testEn hg,
    fun hen hidx => exec_check_of_outOfRange hg hen (decide_eq_false (Nat.not_lt.2 hidx)),
    fun hen hidx => exec_check_of_fault hg hen (decide_eq_true hidx), fun e hen hidx hp he => ?_⟩
  have hv : s.verdict (.chkrt idx) = some (roundTrips s.plat e) := congrArg (Option.map _) he
  exact ⟨_, roundTrips_iff, roundTrips_iff_of_limbwise, exec_check_of_ready hg hen (decide_eq_true hidx) hp hv⟩

/-! ### The table is a function of the ROM (R124, R125) -/

/-- Settles O51: in READY the view and every entry are those decoded from the ROM. -/
theorem sameRomSameTable : Obligations.SameRomSameTable := by
  unfold Obligations.SameRomSameTable
  intro s s' h h' hp hp' hrom hn
  have hget : ∀ k, s.table.get k = s'.table.get k := fun k => by
    rw [h.table_get_of_ready hp, h'.table_get_of_ready hp', hrom, hn]
  refine ⟨by rw [h.tableView_of_ready hp, h'.tableView_of_ready hp', hrom, hn], hget, fun idx hidx => ?_⟩
  have he : s.table.get idx.toNat = some (decodeRecord s.plat.rom idx.toNat) := by
    rw [h.table_get_of_ready hp, if_pos hidx]
  exact ⟨_, execRead_of_stored hp hidx he, execRead_of_stored hp' (hn ▸ hidx) (hget _ ▸ he)⟩

theorem decodeRecord_congr {rom rom' : Memory} {m : Nat}
    (h : ∀ b < 32, rom'.read (32 * m + b) = rom.read (32 * m + b)) : decodeRecord rom' m = decodeRecord rom m :=
  congrArg elementOf (List.map_congr_left fun b hb => h b (List.mem_range.1 hb))

/-- Flipping a bit of the byte at offset `32k + n` flips it in the chunk of record `k`. -/
theorem bytes_eq_flipBit {rom rom' : Memory} {k n t : Nat} (hn : n < 32)
    (h : ∀ a, rom'.read a = if a = 32 * k + n then rom.read a ^^^ (1#8 <<< t) else rom.read a) :
    rom'.bytes (32 * k) 32 = flipBit (rom.bytes (32 * k) 32) n t := by
  refine eq_of_getD_eq (Memory.length_bytes ..) (by simp [flipBit]) fun b hb => ?_
  rw [getD_flipBit (by simpa using hn), Memory.getD_bytes _ _ _ _ hb, Memory.getD_bytes _ _ _ _ hb, h]
  simp only [Nat.add_left_cancel_iff, eq_comm]

/-- Settles O52: no other record has the flipped byte, and in record `k` it is byte `n`. -/
theorem bitFlipIsLocal : Obligations.BitFlipIsLocal := by
  unfold Obligations.BitFlipIsLocal
  intro rom rom' k n t hn ht h
  refine ⟨fun m hm => decodeRecord_congr fun b hb => ?_, fun l hl b hb => ?_⟩
  · rw [h, if_neg (by omega)]
  · have hrec : decodeRecord rom' k = elementOf (flipBit (rom.bytes (32 * k) 32) n t) :=
      congrArg elementOf (bytes_eq_flipBit hn h)
    rw [hrec]
    exact feLimb_elementOf_flipBit_getLsbD (by simpa using hn) ht hl hb

end Sys2Proof.Machine
end

section
/-! PROOFS. Family 60_exceptions.md: the register and response codes (R133), the illegal command word (R134) and the
index that is no entry (R135). That a word decodes says which fields it has: a row compares `op` and `rsv` whole, and
those of INIT and CHKLEN `idx` too. -/

namespace Sys2Proof

variable {w : CmdWord} {i : Instr} {r : CmdRow}

/-! ### The fields of a word that decodes (R67, R70) -/

theorem exists_row_of_decodeCommand (h : decodeCommand w = .ok i) :
    ∃ r ∈ cmdRows, r.selects w = true ∧ i = r.op.build (idxField w) := by
  unfold decodeCommand at h
  split at h
  · next r hfind =>
    cases h
    exact ⟨r, List.mem_of_find?_eq_some hfind, List.find?_some (p := fun r : CmdRow => r.selects w) hfind, rfl⟩
  · cases h

/-- A field all of whose bits a row compares is the field of the row's pattern. -/
theorem extractLsb'_eq_of_selects {start len : Nat} (h : r.selects w = true)
    (hmask : r.mask.extractLsb' start len = BitVec.allOnes len) :
    w.extractLsb' start len = r.pattern.extractLsb' start len := by
  have hpattern : w &&& r.mask = r.pattern := beq_iff_eq.1 h
  rw [← hpattern, BitVec.extractLsb'_and, hmask, BitVec.and_allOnes]

theorem opField_of_selects (hr : r ∈ cmdRows) (h : r.selects w = true) : opField w = opField r.pattern := by
  have hmask : ∀ r ∈ cmdRows, opField r.mask = BitVec.allOnes 4 := by decide
  exact extractLsb'_eq_of_selects h (hmask r hr)

theorem rsvField_of_selects (hr : r ∈ cmdRows) (h : r.selects w = true) : rsvField w = 0 := by
  have hrow : ∀ r ∈ cmdRows, rsvField r.mask = BitVec.allOnes 2 ∧ rsvField r.pattern = 0 := by decide
  obtain ⟨hmask, hpattern⟩ := hrow r hr
  exact (extractLsb'_eq_of_selects h hmask).trans hpattern

/-- INIT and CHKLEN carry no index. -/
theorem idxField_of_selects (hr : r ∈ cmdRows) (h : r.selects w = true) (hop : opField w ∈ [1#4, 4#4]) :
    idxField w = 0 := by
  have hrow : ∀ r ∈ cmdRows, opField r.pattern ∈ [1#4, 4#4] →
      idxField r.mask = BitVec.allOnes 10 ∧ idxField r.pattern = 0 := by decide
  obtain ⟨hmask, hpattern⟩ := hrow r hr (opField_of_selects hr h ▸ hop)
  exact (extractLsb'_eq_of_selects h hmask).trans hpattern

/-- A word that decodes is illegal by none of the clauses R70 (a) to (c). -/
theorem fields_of_decodeCommand (h : decodeCommand w = .ok i) :
    opField w ∈ [1#4, 2#4, 4#4, 5#4, 6#4] ∧ rsvField w = 0 ∧ (opField w ∈ [1#4, 4#4] → idxField w = 0) := by
  obtain ⟨r, hr, hsel, -⟩ := exists_row_of_decodeCommand h
  have hop : ∀ r ∈ cmdRows, opField r.pattern ∈ [1#4, 2#4, 4#4, 5#4, 6#4] := by decide
  exact ⟨opField_of_selects hr hsel ▸ hop r hr, rsvField_of_selects hr hsel, idxField_of_selects hr hsel⟩

/-- The operation numbers 4, 5 and 6 are those of the three checks. -/
theorem exists_check_of_decodeCommand (h : decodeCommand w = .ok i) (hop : opField w ∈ [4#4, 5#4, 6#4]) :
    ∃ g : Gated, i = g.toInstr ∧ ∀ idx, g ≠ .read idx := by
  obtain ⟨r, hr, hsel, rfl⟩ := exists_row_of_decodeCommand h
  have hrow : ∀ r ∈ cmdRows, opField r.pattern ∈ [4#4, 5#4, 6#4] →
      r.op = .chklen ∨ r.op = .chknz ∨ r.op = .chkrt := by decide
  rcases hrow r hr (opField_of_selects hr hsel ▸ hop) with hchk | hchk | hchk <;> rw [hchk]
  · exact ⟨.chklen, rfl, nofun⟩
  · exact ⟨.chknz (idxField w), rfl, nofun⟩
  · exact ⟨.chkrt (idxField w), rfl, nofun⟩

end Sys2Proof

namespace Sys2Proof.Machine

variable {s : State} {a : AgentId} {w : CmdWord} {rest : List Event}

/-! ### The codes (R133) and the status output (R25) -/

theorem statusOut_eq_codes (s : State) :
    s.statusOut = (decide (s.phase.code = 0b10#2), decide (s.phase.code = 0b11#2), s.fcode.code) := by
  unfold State.statusOut State.readyOut State.faultOut
  cases s.phase <;> rfl

theorem FCode.code_ne_reserved (c : FCode) : c.code ≠ 3#2 := by
  cases c <;> decide

/-- Settles O31: the codes are the definitions' own, and each phase shows the status bits its code says. -/
theorem registerCodesAndStatusOutput : Obligations.RegisterCodesAndStatusOutput := by
  unfold Obligations.RegisterCodesAndStatusOutput
  exact ⟨rfl, FCode.code_ne_reserved, rfl, rfl, rfl, rfl, statusOut_eq_codes⟩

/-! ### IllegalCommand (R70, R134) -/

theorem step_command (hs : s.schedule = .command a w :: rest) : step s = issue a w { s with schedule := rest } := by
  rw [step, hs]
  rfl

/-- A word that decodes is performed as its agent's command. -/
theorem issue_of_ok {i : Instr} (hfree : findCell s.pending a = none) (hi : decodeCommand w = .ok i) :
    issue a w s = exec i (s.onBehalfOf a) := by
  simp [issue, State.waits, hfree, hi]

/-- A word that does not decode is refused. -/
theorem issue_of_error {r : Reject} (hfree : findCell s.pending a = none) (hi : decodeCommand w = .error r) :
    issue a w s = illegalCommand (s.onBehalfOf a) := by
  simp [issue, State.waits, hfree, hi]

/-- Settles O33: a word illegal by its fields does not decode; one that decodes is illegal only as a test command, and
its check answers so before its gate looks at the index or the phase. -/
theorem illegalWordIsAnswered : Obligations.IllegalWordIsAnswered := by
  unfold Obligations.IllegalWordIsAnswered
  intro s a w rest hs hfree hillegal
  rw [step_command hs]
  cases hd : decodeCommand w with
  | error r => exact issue_of_error hfree hd
  | ok i =>
    obtain ⟨hop, hrsv, hidx⟩ := fields_of_decodeCommand hd
    rcases hillegal with hbad | hbad | ⟨hbad, hnoIdx⟩ | ⟨hen, htest⟩
    · exact absurd hop hbad
    · exact absurd hrsv hbad
    · exact absurd (hidx hnoIdx) hbad
    · obtain ⟨g, rfl, hg⟩ := exists_check_of_decodeCommand hd htest
      calc issue a w { s with schedule := rest }
        _ = exec g.toInstr { s with schedule := rest, requester := a } := issue_of_ok hfree hd
        _ = _ := exec_check_of_not_testEn hg hen

/-! ### IndexRange (R135) -/

/-- Settles O18: the gate compares the index before it looks at the phase. -/
theorem indexOutOfRangeIsRefused : Obligations.IndexOutOfRangeIsRefused := by
  unfold Obligations.IndexOutOfRangeIsRefused
  intro idx s i hidx hi
  have hout : decide (idx.toNat < s.plat.nRec) = false := decide_eq_false (Nat.not_lt.2 hidx)
  rcases hi with rfl | ⟨hen, rfl | rfl⟩
  · exact gated_of_outOfRange (g := .read idx) hout _
  · exact exec_check_of_outOfRange (g := .chknz idx) nofun hen hout
  · exact exec_check_of_outOfRange (g := .chkrt idx) nofun hen hout

end Sys2Proof.Machine
end

section
/-! PROOFS. Family 70_reset_and_hazards.md: RESET in both build modes (R150, R151), by the value `State.takeReset` has
for each mode and ROM length; and PREBUILT mode between resets, by the invariants (R109). -/

namespace Sys2Proof.Machine

variable {s t : State} {rest : List Event}

/-! ### What RESET leaves, by mode and ROM length -/

theorem step_reset (hs : s.schedule = .reset :: rest) :
    step s = .next ({ s with schedule := rest } : State).takeReset := by
  rw [step, hs]
  rfl

theorem takeReset_of_lazy (hmode : s.plat.buildMode = .lazyBuild) : s.takeReset = s.cleared := by
  simp [State.takeReset, hmode]

theorem takeReset_of_defect_none (hmode : s.plat.buildMode = .prebuilt) (hd : s.plat.defect = none) :
    s.takeReset = s.prebuiltReady := by
  simp [State.takeReset, hmode, hd]

theorem takeReset_of_defect {c : FCode} (hmode : s.plat.buildMode = .prebuilt) (hd : s.plat.defect = some c) :
    s.takeReset = { s.cleared with phase := .fault, fcode := c } := by
  simp [State.takeReset, hmode, hd]

/-- In every mode, and whatever reset finds: ROM, straps and library stay, and held commands are dropped with no
response (R150). -/
theorem takeReset_frame (s : State) :
    s.takeReset.plat = s.plat ∧ s.takeReset.pending = [] ∧ s.takeReset.out = .silent := by
  unfold State.takeReset
  split
  · exact ⟨rfl, rfl, rfl⟩
  · split <;> exact ⟨rfl, rfl, rfl⟩

/-- With the ROM of the right length, PREBUILT reset delivers the decoded table; neither cursor wraps, since
`32 * 960 < 2^15` and `960 < 2^10`. -/
theorem takeReset_of_length_eq (hmode : s.plat.buildMode = .prebuilt) (hn : s.plat.nRec ≤ 960)
    (hlen : s.plat.romLen = some (32 * s.plat.nRec)) :
    s.takeReset.phase = .ready ∧ s.takeReset.fcode = .noFault ∧ s.takeReset.i.toNat = 32 * s.plat.nRec ∧
      s.takeReset.j.toNat = s.plat.nRec ∧
      ∀ k, s.takeReset.table.get k = if k < s.plat.nRec then some (decodeRecord s.plat.rom k) else none := by
  rw [takeReset_of_defect_none hmode (defect_of_romLen_eq hlen)]
  refine ⟨rfl, rfl, ?_, ?_, fun k => Table.get_filled ..⟩
  · rw [State.prebuiltReady_i, BitVec.toNat_ofNat, romLenExpected_eq]
    omega
  · rw [State.prebuiltReady_j, BitVec.toNat_ofNat]
    omega

/-- With any other ROM, PREBUILT reset takes the fault at once, and no entry holds a value. -/
theorem takeReset_of_length_ne (hmode : s.plat.buildMode = .prebuilt)
    (hlen : s.plat.romLen ≠ some (32 * s.plat.nRec)) :
    s.takeReset.phase = .fault ∧ s.takeReset.fcode = (if s.plat.romLen = none then .resMissing else .resLength) ∧
      ∀ k, s.takeReset.table.get k = none := by
  rw [takeReset_of_defect hmode (defect_of_romLen_ne hlen)]
  exact ⟨rfl, rfl, fun _ => rfl⟩

/-! ### PREBUILT mode between resets -/

/-- UNBUILT and BUSY are LAZY's alone. -/
theorem LoaderInv.phase_of_prebuilt (h : LoaderInv s) (hmode : s.plat.buildMode = .prebuilt) :
    s.phase = .ready ∨ s.phase = .fault := by
  cases hp : s.phase with
  | unbuilt =>
    obtain ⟨hlazy, -⟩ := h.ofUnbuilt hp
    simp [hmode] at hlazy
  | busy =>
    obtain ⟨hlazy, -⟩ := h.ofBusy hp
    simp [hmode] at hlazy
  | ready => exact .inl rfl
  | fault => exact .inr rfl

/-- A command is held only in BUSY, or in UNBUILT where it begins the build (R106). -/
theorem pending_of_effect {i : Instr} (hp : s.phase = .ready ∨ s.phase = .fault) (h : Effect i s t) :
    t.pending = s.pending := by
  cases h with
  | held g _ hbusy => simp [hbusy] at hp
  | begunHeld g _ hunbuilt _ => simp [hunbuilt] at hp
  | delivered o _ => rfl
  | readAnswer idx e _ _ _ _ => rfl
  | faulted c _ _ => rfl
  | begun _ _ => rfl
  | stored C _ _ _ _ => rfl
  | published _ _ => rfl

/-! ### The two transitions -/

/-- Settles O36: in LAZY mode RESET is `State.cleared`, which says what it clears field by field. -/
theorem lazyResetTransition : Obligations.LazyResetTransition := by
  unfold Obligations.LazyResetTransition
  intro s rest hs hmode
  have hstep : step s = .next ({ s with schedule := rest } : State).cleared :=
    (step_reset hs).trans (congrArg _ (takeReset_of_lazy hmode))
  exact ⟨_, hstep, rfl, rfl, fun _ => rfl, fun _ => rfl, rfl, fun _ => rfl, rfl, rfl, rfl⟩

/-- Settles O37: the ROM length decides whether reset delivers the table or takes the fault; between resets the
invariants leave only READY and FAULT, where the selector selects nothing and no operation holds. -/
theorem prebuiltResetTransition : Obligations.PrebuiltResetTransition := by
  unfold Obligations.PrebuiltResetTransition
  refine ⟨fun s rest hs hmode hn => ?_, fun s h hmode => ?_⟩
  · obtain ⟨hplat, hpending, hout⟩ := takeReset_frame { s with schedule := rest }
    refine ⟨_, step_reset hs, hplat, fun a => ?_, hout, schedule_takeReset _, fun hlen => ?_, fun hlen => ?_,
      fun len hlen hne => ?_⟩
    · rw [hpending, findCell_nil]
    · exact takeReset_of_length_eq (s := { s with schedule := rest }) hmode hn hlen
    · simpa [hlen] using takeReset_of_length_ne (s := { s with schedule := rest }) hmode (by simp [hlen])
    · simpa [hlen] using takeReset_of_length_ne (s := { s with schedule := rest }) hmode (by simp [hlen, hne])
  · have hp := h.phase_of_prebuilt hmode
    refine ⟨hp, decodeSequencer_sel_of_not_busy fun hbusy => ?_, fun i t hx => pending_of_effect hp (exec_next hx)⟩
    simp [hbusy] at hp

end Sys2Proof.Machine
end

section
/-! PROOFS. Family 30_encoding.md, the round trip (R67 to R71): a command word is its three fields, a datapath operand
its bytes or its limbs, so what the decoder reads off a selection is all of it. -/

namespace Sys2Proof

variable {w : CmdWord} {i : Instr} {r r' : CmdRow} {idx : Idx}

/-! ### From the operation to its bits and back -/

/-- Settles O29: the round trip of each operation, one lemma per row of the opcode table. -/
theorem decodeOfEncode : Obligations.DecodeOfEncode := by
  unfold Obligations.DecodeOfEncode
  intro i
  cases i with
  | le64 bytes => exact Laws.RoundTrip.le64 bytes
  | chunk bytes => exact Laws.RoundTrip.chunk bytes
  | fromraw a b c d => exact Laws.RoundTrip.fromraw a b c d
  | init => exact Laws.RoundTrip.init
  | read idx => exact Laws.RoundTrip.read idx
  | step => exact Laws.RoundTrip.step
  | finish => exact Laws.RoundTrip.finish
  | chklen => exact Laws.RoundTrip.chklen
  | chknz idx => exact Laws.RoundTrip.chknz idx
  | chkrt idx => exact Laws.RoundTrip.chkrt idx

/-! ### From the bits to the operation and back -/

/-- A command word with `rsv` = 0b00 is put together from its `op` and its `idx` (R67). -/
theorem cmdWord_opField_idxField (hrsv : rsvField w = 0) : cmdWord (opField w) (idxField w) = w := by
  have hfields : opField w ++ rsvField w ++ idxField w = w := by
    unfold opField rsvField idxField
    rw [BitVec.extractLsb'_append_extractLsb'_eq_extractLsb' (by rfl),
      BitVec.extractLsb'_append_extractLsb'_eq_extractLsb' (by rfl)]
    exact BitVec.extractLsb'_eq_self
  rwa [hrsv] at hfields

/-- The operation of a row is encoded with the row's `op` and the index it was built with. -/
theorem encode_build_of_mem (hr : r ∈ cmdRows) (hidx : opField r.pattern ∈ [1#4, 4#4] → idx = 0) :
    encode (r.op.build idx) = .command (cmdWord (opField r.pattern) idx) := by
  simp only [cmdRows, List.mem_cons, List.not_mem_nil, or_false] at hr
  rcases hr with rfl | rfl | rfl | rfl | rfl
  case inl | inr.inr.inl =>
    rw [hidx (by decide)]
    rfl
  all_goals rfl

theorem encode_of_decodeCommand (h : decodeCommand w = .ok i) : encode i = .command w := by
  obtain ⟨-, hrsv, hidx⟩ := fields_of_decodeCommand h
  obtain ⟨r, hr, hsel, rfl⟩ := exists_row_of_decodeCommand h
  rw [opField_of_selects hr hsel] at hidx
  rw [encode_build_of_mem hr hidx, ← opField_of_selects hr hsel, cmdWord_opField_idxField hrsv]

theorem wf_of_isCommand (h : Machine.isCommand i = true) : WellFormed i := by
  cases i with
  | le64 bytes => cases h
  | chunk bytes => cases h
  | _ => rfl

theorem wf_decodeDatapath (d : Datapath) : WellFormed (decodeDatapath d) := by
  cases d with
  | le64 v => exact beq_iff_eq.2 (length_leBytes ..)
  | chunk w => exact beq_iff_eq.2 (length_leBytes ..)
  | fromraw w => rfl

theorem encode_decodeDatapath (d : Datapath) : encode (decodeDatapath d) = .datapath d := by
  cases d with
  | le64 v => exact congrArg (fun v => Selection.datapath (.le64 v)) (ofNat_leNat_leBytes (n := 8) v)
  | chunk w => exact congrArg (fun w => Selection.datapath (.chunk w)) (ofNat_leNat_leBytes (n := 32) w)
  | fromraw w =>
    simp only [decodeDatapath, encode]
    rw [BitVec.extractLsb'_append_extractLsb'_eq_extractLsb' (by rfl),
      BitVec.extractLsb'_append_extractLsb'_eq_extractLsb' (by rfl),
      BitVec.extractLsb'_append_extractLsb'_eq_extractLsb' (by rfl)]
    exact congrArg (fun w => Selection.datapath (.fromraw w)) BitVec.extractLsb'_eq_self

/-- Two selector values give a step, STEP and FINISH, and each is encoded to its own. -/
theorem encode_of_decodeSequencer {sel : Sel} (h : decodeSequencer sel = .ok i) :
    WellFormed i ∧ encode i = .sequencer sel := by
  unfold decodeSequencer at h
  split at h
  · next hsel =>
    cases h
    exact ⟨rfl, congrArg _ hsel.symm⟩
  · split at h
    · next hsel =>
      cases h
      exact ⟨rfl, congrArg _ hsel.symm⟩
    · cases h

/-- Settles O30: a word is put together from the fields the decoder reads, an operand from its bytes or limbs. -/
theorem encodeOfDecode : Obligations.EncodeOfDecode := by
  unfold Obligations.EncodeOfDecode
  intro sel i h
  cases sel with
  | command w => exact ⟨wf_of_isCommand (Machine.isCommand_of_decodeCommand h), encode_of_decodeCommand h⟩
  | sequencer sel => exact encode_of_decodeSequencer h
  | datapath d =>
    cases h
    exact ⟨wf_decodeDatapath d, encode_decodeDatapath d⟩

/-! ### The words that decode -/

/-- A word that is illegal by none of the clauses R70 (a) to (c) is the encoding of an operation, so it decodes. -/
theorem exists_decodeCommand_eq_ok (hop : opField w ∈ [1#4, 2#4, 4#4, 5#4, 6#4]) (hrsv : rsvField w = 0)
    (hidx : opField w ∈ [1#4, 4#4] → idxField w = 0) : ∃ i, decodeCommand w = .ok i := by
  have hword := cmdWord_opField_idxField hrsv
  have hencode : ∃ i, WellFormed i ∧ encode i = .command w := by
    simp only [List.mem_cons, List.not_mem_nil, or_false] at hop
    rcases hop with hop | hop | hop | hop | hop
    case inl =>
      rw [hop, hidx (by simp [hop])] at hword
      exact ⟨.init, rfl, congrArg _ hword⟩
    case inr.inl => exact ⟨.read (idxField w), rfl, congrArg _ (hop ▸ hword)⟩
    case inr.inr.inl =>
      rw [hop, hidx (by simp [hop])] at hword
      exact ⟨.chklen, rfl, congrArg _ hword⟩
    case inr.inr.inr.inl => exact ⟨.chknz (idxField w), rfl, congrArg _ (hop ▸ hword)⟩
    case inr.inr.inr.inr => exact ⟨.chkrt (idxField w), rfl, congrArg _ (hop ▸ hword)⟩
  obtain ⟨i, hwf, henc⟩ := hencode
  have hdecode := decodeOfEncode i hwf
  rw [henc] at hdecode
  exact ⟨i, hdecode⟩

/-- A word decodes exactly if it is illegal by none of the clauses R70 (a) to (c). -/
theorem decodes_iff :
    (∃ i, decodeCommand w = .ok i) ↔
      opField w ∈ [1#4, 2#4, 4#4, 5#4, 6#4] ∧ rsvField w = 0 ∧ (opField w ∈ [1#4, 4#4] → idxField w = 0) :=
  ⟨fun ⟨_, hi⟩ => fields_of_decodeCommand hi, fun ⟨hop, hrsv, hidx⟩ => exists_decodeCommand_eq_ok hop hrsv hidx⟩

/-- Settles O27: a word that decodes has legal fields, and one with legal fields is the encoding of an operation. -/
theorem illegalCommandWords : Obligations.IllegalCommandWords := by
  unfold Obligations.IllegalCommandWords
  intro w
  have hreject : (∃ r, decodeCommand w = .error r) ↔ ¬ ∃ i, decodeCommand w = .ok i := by
    cases decodeCommand w <;> simp
  rw [hreject, decodes_iff]
  unfold opField rsvField idxField
  tauto

/-- Settles O28: every row compares `op` whole, and no two rows have the same. -/
theorem commandRowsAreDisjoint : Obligations.CommandRowsAreDisjoint := by
  unfold Obligations.CommandRowsAreDisjoint
  intro w r r' hr hr' hsel hsel'
  have hop : opField r.pattern = opField r'.pattern :=
    (opField_of_selects hr (beq_iff_eq.2 hsel)).symm.trans (opField_of_selects hr' (beq_iff_eq.2 hsel'))
  have hinj : ∀ r ∈ cmdRows, ∀ r' ∈ cmdRows, opField r.pattern = opField r'.pattern → r = r' := by decide
  exact hinj r hr r' hr' hop

/-- Settles O26: eleven closed words. -/
theorem workedCommandWords : Obligations.WorkedCommandWords := by
  unfold Obligations.WorkedCommandWords
  decide

end Sys2Proof
end

section
/-! PROOFS. What an operation leaves unchanged (20_memory.md, 40_limb_deserializer.md to 43_validation.md), read off the
inversion lemmas of the operations; and what a command in BUSY cannot learn (10_state.md section 8). -/

namespace Sys2Proof.Machine

variable {s : State} {i : Instr} {a : AgentId} {g : Gated}

/-! ### The datapath functions -/

theorem exec_le64 (B : List Byte) (s : State) :
    exec (.le64 B) s = datapathResult B 8 (fun B => .limb (le64 B)) s := rfl

theorem exec_chunk (C : List Byte) (s : State) :
    exec (.chunk C) s = datapathResult C 32 (fun C => .limbs (chunk C)) s := rfl

theorem datapathResult_of_length_ne {bytes : List Byte} {width : Nat} (h : bytes.length ≠ width)
    (result : List Byte → Output) (s : State) : datapathResult bytes width result s = .fault .operandLength :=
  if_neg h

/-- Settles O5: CHUNK is a datapath result of width 32. -/
theorem chunkOperandLengthStops : Obligations.ChunkOperandLengthStops := by
  unfold Obligations.ChunkOperandLengthStops
  exact fun C s hlen => (exec_chunk C s).trans (datapathResult_of_length_ne hlen _ s)

/-- Settles O55: LE64 is a datapath result of width 8. -/
theorem le64OperandLengthStops : Obligations.Le64OperandLengthStops := by
  unfold Obligations.Le64OperandLengthStops
  exact fun B s hlen => (exec_le64 B s).trans (datapathResult_of_length_ne hlen _ s)

/-- Settles O20: a datapath function delivers its result or stops. -/
theorem datapathFrame : Obligations.DatapathFrame := by
  unfold Obligations.DatapathFrame
  intro i s t hi hx
  have hemit : ∃ o, t = s.emit o := by
    rcases hi with ⟨B, rfl⟩ | ⟨C, rfl⟩ | ⟨a, b, c, d, rfl⟩
    · exact ⟨_, (datapathResult_next (exec_le64 B s ▸ hx)).2⟩
    · exact ⟨_, (datapathResult_next (exec_chunk C s ▸ hx)).2⟩
    · cases (exec_fromraw a b c d s).symm.trans hx
      exact ⟨_, rfl⟩
  obtain ⟨o, rfl⟩ := hemit
  exact ⟨rfl, fun _ => rfl⟩

/-! ### The loader's steps -/

/-- Settles O15: STEP stores one entry and moves the cursors, FINISH publishes; neither has another transition. -/
theorem loaderStepFrame : Obligations.LoaderStepFrame := by
  unfold Obligations.LoaderStepFrame
  intro i s t hi hx
  rcases hi with rfl | rfl
  · obtain ⟨-, -, C, -, rfl⟩ := execStep_next hx
    refine ⟨fun _ => rfl, rfl, rfl, rfl, rfl, rfl, rfl, rfl, fun k _ hk => ?_, fun _ => rfl, fun hi => nomatch hi⟩
    rw [State.storeEntry_table, Table.get_set, if_neg (Ne.symm hk)]
  · obtain ⟨-, rfl⟩ := execFinish_next hx
    exact ⟨fun _ => rfl, rfl, rfl, rfl, rfl, rfl, rfl, rfl, fun _ hi => (nomatch hi),
      fun hi => (nomatch hi), fun _ => ⟨rfl, rfl, rfl⟩⟩

theorem loaderMove_of_ne (hstep : s.sel ≠ 0b010#3) (hfinish : s.sel ≠ 0b011#3) : loaderMove s = .next s.quiet := by
  simp [loaderMove, decodeSequencer_of_ne hstep hfinish]

/-- Settles O14: each loader step looks at the selector first, and the loader's move is what the selector decodes to. -/
theorem unselectedLoaderStepIsRefused : Obligations.UnselectedLoaderStepIsRefused := by
  unfold Obligations.UnselectedLoaderStepIsRefused
  exact fun s => ⟨fun h => if_pos h, fun h => if_pos h, loaderMove_of_ne⟩

/-! ### The commands -/

/-- A command of the command port is INIT or a gated command (R65, R104, R126). -/
theorem eq_init_or_gated_of_isCommand (h : isCommand i = true) : i = .init ∨ ∃ g : Gated, i = g.toInstr := by
  cases i with
  | init => exact .inl rfl
  | read idx => exact .inr ⟨.read idx, rfl⟩
  | chklen => exact .inr ⟨.chklen, rfl⟩
  | chknz idx => exact .inr ⟨.chknz idx, rfl⟩
  | chkrt idx => exact .inr ⟨.chkrt idx, rfl⟩
  | le64 _ | chunk _ | fromraw _ _ _ _ | step | finish => cases h

/-- Holding a command leaves the holds of every other agent. -/
theorem findCell_hold_of_ne (ha : a ≠ s.requester) : findCell (s.hold g).pending a = findCell s.pending a := by
  rw [State.hold_pending, findCell_setCell, if_neg (Ne.symm ha)]

/-- Settles O19: a command delivers, is held, begins the build or takes the fault; the last two only in UNBUILT. -/
theorem commandFrame : Obligations.CommandFrame := by
  unfold Obligations.CommandFrame
  intro i s t hcmd hx
  cases exec_next hx with
  | delivered _ _ | readAnswer _ _ _ _ _ _ =>
    exact ⟨fun _ => rfl, rfl, fun _ => rfl, rfl, rfl, rfl, fun _ _ => rfl, fun _ => ⟨rfl, rfl, rfl, rfl⟩⟩
  | held g _ _ =>
    exact ⟨fun _ => rfl, rfl, fun _ => rfl, rfl, rfl, rfl, fun _ => findCell_hold_of_ne,
      fun _ => ⟨rfl, rfl, rfl, rfl⟩⟩
  | faulted _ hp _ | begun hp _ =>
    exact ⟨fun _ => rfl, rfl, fun _ => rfl, rfl, rfl, rfl, fun _ _ => rfl, fun hnot => absurd hp hnot⟩
  | begunHeld g _ hp _ =>
    exact ⟨fun _ => rfl, rfl, fun _ => rfl, rfl, rfl, rfl, fun _ => findCell_hold_of_ne (s := s.beginBuild),
      fun hnot => absurd hp hnot⟩
  | stored _ hi _ _ _ | published hi _ => cases hi ▸ hcmd

/-- The word of a gated command is legal: READ always, a check only with `TEST_EN` (R70 (d)). -/
def Platform.allows (p : Platform) (g : Gated) : Prop := p.testEn = true ∨ ∃ idx, g = .read idx

/-- A legal gated command stands behind the gate. -/
theorem exec_gated_of_allowed (h : s.plat.allows g) : ∃ f, exec g.toInstr s = gated g f s := by
  by_cases hg : ∃ idx, g = .read idx
  · obtain ⟨idx, rfl⟩ := hg
    exact ⟨_, rfl⟩
  · obtain ⟨f, hexec, -⟩ := exec_check_eq_gated (not_exists.1 hg) (h.resolve_right hg)
    exact ⟨f, hexec⟩

theorem exec_gated_of_not_allowed (h : ¬ s.plat.allows g) :
    exec g.toInstr s = .next (s.answer .errIllegal .noData) := by
  obtain ⟨hen, hg⟩ := not_or.1 h
  exact exec_check_of_not_testEn (not_exists.1 hg) (Bool.eq_false_iff.2 hen)

/-- In BUSY a command is answered without data or held, and ROM and straps alone say which (R101, R104, R126). -/
theorem exec_of_busy (hcmd : isCommand i = true) (p : Platform) :
    (∃ st, ∀ u : State, u.phase = .busy → u.plat = p → exec i u = .next (u.answer st .noData)) ∨
    ∃ g, ∀ u : State, u.phase = .busy → u.plat = p → exec i u = .next (u.hold g) := by
  rcases eq_init_or_gated_of_isCommand hcmd with rfl | ⟨g, rfl⟩
  · exact .inl ⟨.ok, fun u hp _ => exec_init_of_begun (.inl hp)⟩
  · by_cases hallow : p.allows g
    · cases hr : gateInRange g p.nRec with
      | false =>
        refine .inl ⟨.errIndex, fun u _ hu => ?_⟩
        obtain ⟨f, hexec⟩ := exec_gated_of_allowed (hu ▸ hallow)
        exact hexec.trans (gated_of_outOfRange (hu ▸ hr) f)
      | true =>
        refine .inr ⟨g, fun u hp hu => ?_⟩
        obtain ⟨f, hexec⟩ := exec_gated_of_allowed (hu ▸ hallow)
        exact hexec.trans (gated_of_busy (hu ▸ hr) hp f)
    · exact .inl ⟨.errIllegal, fun u _ hu => exec_gated_of_not_allowed (hu ▸ hallow)⟩

/-- Settles O48: what decides a command's answer in BUSY is neither the table nor a cursor. -/
theorem partialTableIsHidden : Obligations.PartialTableIsHidden := by
  unfold Obligations.PartialTableIsHidden
  intro i s t table ci cj hcmd hp hx
  rcases exec_of_busy hcmd s.plat with ⟨st, hany⟩ | ⟨g, hany⟩
  · cases (hany s hp rfl).symm.trans hx
    exact hany _ hp rfl
  · cases (hany s hp rfl).symm.trans hx
    exact hany _ hp rfl

end Sys2Proof.Machine
end

section
/-! PROOFS. The step of the whole block (10_state.md, 42_table_loader.md agents and holding): what each scheduled move
performs, and what no step writes, or none but RESET. -/

namespace Sys2Proof.Machine

variable {s t u : State} {i : Instr} {a : AgentId} {w : CmdWord} {g : Gated} {rest : List Event}

/-! ### What a scheduled move performs (R106, R111) -/

theorem step_of_scheduled {e : Event} (hs : s.schedule = e :: rest) :
    step s = perform e { s with schedule := rest } := by
  rw [step, hs]

theorem loaderMove_of_ok (hi : decodeSequencer s.sel = .ok i) : loaderMove s = exec i s := by
  simp [loaderMove, hi]

/-- An agent that waits issues nothing. -/
theorem issue_of_waiting (hg : findCell s.pending a = some g) : issue a w s = .next s.quiet := by
  simp [issue, State.waits, hg]

theorem lifted_iff : s.lifted = true ↔ s.phase = .ready ∨ s.phase = .fault := by
  simp [State.lifted]

theorem poll_of_lifted (hg : findCell s.pending a = some g) (hp : s.phase = .ready ∨ s.phase = .fault) :
    poll a s = exec g.toInstr (s.takeHeld a) := by
  simp [poll, hg, lifted_iff.2 hp]

theorem poll_of_not_lifted (hp : s.phase = .unbuilt ∨ s.phase = .busy) : poll a s = .next s.quiet := by
  have hl : s.lifted = false := by rcases hp with hp | hp <;> simp [State.lifted, hp]
  unfold poll
  split
  · rfl
  · exact if_neg (by simp [hl])

/-- Settles O32: a word and a selector are performed as what they decode to, and every datapath operand decodes. -/
theorem stepRunsTheDecodedOperation : Obligations.StepRunsTheDecodedOperation := by
  unfold Obligations.StepRunsTheDecodedOperation
  refine fun s rest i => ⟨fun a w hs hfree hi => (step_command hs).trans (issue_of_ok hfree hi),
    fun hs hi => (step_of_scheduled hs).trans (loaderMove_of_ok hi), fun d hs hi => ?_⟩
  cases hi
  exact step_of_scheduled hs

/-- Settles O34: re-examining performs a lifted hold and leaves any other; RESET empties the held commands. -/
theorem heldCommandIsReexamined : Obligations.HeldCommandIsReexamined := by
  unfold Obligations.HeldCommandIsReexamined
  refine fun s a g rest hg => ⟨fun hs hp => (step_of_scheduled hs).trans (poll_of_lifted hg hp),
    fun hs hp => (step_of_scheduled hs).trans (poll_of_not_lifted hp), fun hs => ?_⟩
  obtain ⟨-, hpending, hout⟩ := takeReset_frame { s with schedule := rest }
  exact ⟨_, step_reset hs, by rw [hpending, findCell_nil], hout⟩

/-- Settles O35: issuing looks at the held commands first. -/
theorem waitingAgentIssuesNothing : Obligations.WaitingAgentIssuesNothing := by
  unfold Obligations.WaitingAgentIssuesNothing
  exact fun s a w g rest hs hg => (step_command hs).trans (issue_of_waiting hg)

/-! ### What no step writes (R20, R21), and what none but RESET writes (R28, R109 (I5), R139) -/

theorem plat_of_effect (h : Effect i s t) : t.plat = s.plat := by
  cases h <;> rfl

/-- The table, both cursors and the two registers of `s` stand in `t` as they were. -/
structure SameResult (s t : State) : Prop where
  phase : t.phase = s.phase
  table : t.table = s.table
  i : t.i = s.i
  j : t.j = s.j
  fcode : t.fcode = s.fcode

theorem SameResult.trans (h : SameResult s t) (h' : SameResult t u) : SameResult s u where
  phase := h'.phase.trans h.phase
  table := h'.table.trans h.table
  i := h'.i.trans h.i
  j := h'.j.trans h.j
  fcode := h'.fcode.trans h.fcode

/-- In READY and FAULT no operation writes the table, a cursor, `phase` or `fcode`: the build begins and faults in
UNBUILT, and the loader's steps are selected in BUSY. -/
theorem sameResult_of_effect (hp : s.phase = .ready ∨ s.phase = .fault) (h : Effect i s t) : SameResult s t := by
  cases h with
  | delivered _ _ | readAnswer _ _ _ _ _ _ | held _ _ _ => exact ⟨rfl, rfl, rfl, rfl, rfl⟩
  | faulted _ hunbuilt _ | begun hunbuilt _ | begunHeld _ _ hunbuilt _ => simp [hunbuilt] at hp
  | stored _ _ hsel _ _ => simp [(sel_eq_step.1 hsel).1] at hp
  | published _ hsel => simp [(sel_eq_finish.1 hsel).1] at hp

/-- A step is RESET, or it is one operation, or a mere delivery, in a state that differs from `s` in the agents' fields
alone. -/
theorem reset_or_effect_of_step (h : step s = .next t) :
    (s.resetNext ∧ t = s.advanced.takeReset) ∨ ∃ i u, Effect i u t ∧ u.plat = s.plat ∧ SameResult s u := by
  cases step_next h with
  | reset hs => exact .inl ⟨hs, rfl⟩
  | idle => exact .inr ⟨.init, s.advanced, .delivered _ nofun, rfl, ⟨rfl, rfl, rfl, rfl, rfl⟩⟩
  | illegal a =>
    exact .inr ⟨.init, s.advanced.onBehalfOf a, answer_delivered .., rfl, ⟨rfl, rfl, rfl, rfl, rfl⟩⟩
  | loader _ _ _ hx | datapath _ _ hx =>
    exact .inr ⟨_, s.advanced, exec_next hx, rfl, ⟨rfl, rfl, rfl, rfl, rfl⟩⟩
  | command a _ i _ _ _ _ hx =>
    exact .inr ⟨i, s.advanced.onBehalfOf a, exec_next hx, rfl, ⟨rfl, rfl, rfl, rfl, rfl⟩⟩
  | lifted a g _ _ _ hx =>
    exact .inr ⟨g.toInstr, s.advanced.takeHeld a, exec_next hx, rfl, ⟨rfl, rfl, rfl, rfl, rfl⟩⟩

theorem plat_of_step (h : step s = .next t) : t.plat = s.plat := by
  rcases reset_or_effect_of_step h with ⟨-, rfl⟩ | ⟨i, u, heff, hplat, -⟩
  · exact (takeReset_frame s.advanced).1
  · exact (plat_of_effect heff).trans hplat

theorem sameResult_of_step (hp : s.phase = .ready ∨ s.phase = .fault) (hreset : ¬ s.resetNext)
    (h : step s = .next t) : SameResult s t := by
  rcases reset_or_effect_of_step h with ⟨hs, -⟩ | ⟨i, u, heff, -, hsame⟩
  · exact absurd hs hreset
  · exact hsame.trans (sameResult_of_effect (hsame.phase ▸ hp) heff)

/-- Settles O43: ROM and straps are fields of `plat`, which no operation and no RESET writes. -/
theorem romAndStrapsNeverChange : Obligations.RomAndStrapsNeverChange := by
  unfold Obligations.RomAndStrapsNeverChange
  exact fun s t h => ⟨plat_of_step h, fun n => by rw [plat_of_step h]⟩

/-- Settles O42: the transitions that write `phase` are the three the rule names. -/
theorem phaseMovesOnlyForward : Obligations.PhaseMovesOnlyForward := by
  unfold Obligations.PhaseMovesOnlyForward
  exact fun s t => phaseMove_of_step

/-- Settles O44: in READY nothing of the result is written. -/
theorem readyTableIsImmutable : Obligations.ReadyTableIsImmutable := by
  unfold Obligations.ReadyTableIsImmutable
  intro s t hp hreset h
  have hsame := sameResult_of_step (.inl hp) hreset h
  exact ⟨hsame.phase.trans hp, hsame.table, hsame.i, hsame.j, hsame.fcode⟩

/-- Settles O45: in FAULT nothing of the result is written either. -/
theorem faultIsLeftOnlyByReset : Obligations.FaultIsLeftOnlyByReset := by
  unfold Obligations.FaultIsLeftOnlyByReset
  intro s t hp hreset h
  have hsame := sameResult_of_step (.inr hp) hreset h
  exact ⟨hsame.phase.trans hp, hsame.fcode⟩

/-! ### The state after reset (R33) -/

/-- Settles O38: the fields of `State.reset` as they are written. -/
theorem stateAfterReset : Obligations.StateAfterReset := by
  unfold Obligations.StateAfterReset
  exact ⟨rfl, rfl, fun _ => rfl, fun _ => rfl, rfl, .nil, nofun⟩

/-- Settles O39: the lists of ROM bytes, entries and holds are empty, and the fields meet the clause of UNBUILT. -/
theorem resetMeetsTheInvariants : Obligations.ResetMeetsTheInvariants := by
  unfold Obligations.ResetMeetsTheInvariants
  exact ⟨⟨Nat.le_refl _, ⟨.nil, nofun⟩, nofun⟩, ⟨.nil, nofun⟩, .nil,
    show UnbuiltInv State.reset from ⟨rfl, rfl, rfl, rfl⟩⟩

end Sys2Proof.Machine
end

section
/-! PROOFS. The result theorem (42_table_loader.md, R109) and progress: from a state that meets the invariants every
step goes on, whatever is delivered is the decoded table's, a build ends and the held commands are all answered. -/

namespace Sys2Proof.Machine

variable {s t u : State} {i : Instr} {a : AgentId} {g : Gated}

/-! ### Every step goes on (R146) -/

theorem LoaderInv.entry_of_ready (h : LoaderInv s) (hp : s.phase = .ready) {m : Nat} (hm : m < s.plat.nRec) :
    s.table.get m = some (decodeRecord s.plat.rom m) := by
  rw [h.table_get_of_ready hp, if_pos hm]

/-- In READY a gated command is answered at once: the finished table has every entry a check or a READ looks at. -/
theorem LoaderInv.exec_gated_of_ready (h : LoaderInv s) (hp : s.phase = .ready) (g : Gated) :
    ∃ st d, exec g.toInstr s = .next (s.answer st d) := by
  by_cases hallow : s.plat.allows g
  · cases hr : gateInRange g s.plat.nRec with
    | false =>
      obtain ⟨f, hexec⟩ := exec_gated_of_allowed hallow
      exact ⟨_, _, hexec.trans (gated_of_outOfRange hr f)⟩
    | true =>
      by_cases hg : ∃ idx, g = .read idx
      · obtain ⟨idx, rfl⟩ := hg
        have hidx : idx.toNat < s.plat.nRec := of_decide_eq_true hr
        exact ⟨_, _, execRead_of_stored hp hidx (h.entry_of_ready hp hidx)⟩
      · have hentry : ∀ idx, g = .chknz idx ∨ g = .chkrt idx → (s.table.get idx.toNat).isSome = true := by
          rintro idx (rfl | rfl) <;> rw [h.entry_of_ready hp (of_decide_eq_true hr), Option.isSome_some]
        obtain ⟨p, hv⟩ := exists_verdict (not_exists.1 hg) hentry
        exact ⟨_, _, exec_check_of_ready (not_exists.1 hg) (hallow.resolve_right hg) hr hp hv⟩
  · exact ⟨_, _, exec_gated_of_not_allowed hallow⟩

theorem LoaderInv.exec_gated_goesOn (h : LoaderInv s) (g : Gated) : ∃ t, exec g.toInstr s = .next t := by
  by_cases hallow : s.plat.allows g
  · obtain ⟨f, hexec⟩ := exec_gated_of_allowed hallow
    cases hr : gateInRange g s.plat.nRec with
    | false => exact ⟨_, hexec.trans (gated_of_outOfRange hr f)⟩
    | true =>
      cases hp : s.phase with
      | unbuilt => exact ⟨_, hexec.trans (gated_of_unbuilt hr hp f)⟩
      | busy => exact ⟨_, hexec.trans (gated_of_busy hr hp f)⟩
      | fault => exact ⟨_, hexec.trans (gated_of_fault hr hp f)⟩
      | ready =>
        obtain ⟨st, d, hanswer⟩ := h.exec_gated_of_ready hp g
        exact ⟨_, hanswer⟩
  · exact ⟨_, exec_gated_of_not_allowed hallow⟩

theorem LoaderInv.exec_command_goesOn (h : LoaderInv s) (hcmd : isCommand i = true) : ∃ t, exec i s = .next t := by
  rcases eq_init_or_gated_of_isCommand hcmd with rfl | ⟨g, rfl⟩
  · exact ⟨_, initTransition s⟩
  · exact h.exec_gated_goesOn g

/-- In BUSY the selector selects STEP while an entry is missing and FINISH at the end, and both are defined there. -/
theorem LoaderInv.loaderMove_goesOn (h : LoaderInv s) : ∃ t, loaderMove s = .next t := by
  by_cases hp : s.phase = .busy
  · obtain ⟨-, -, -, -, hle, -⟩ := h.ofBusy hp
    rcases Nat.lt_or_eq_of_le hle with hj | hj
    · exact ⟨_, (loaderMove_of_step (h.sel_of_j_lt hp hj)).trans (h.exec_step_of_j_lt hp hj)⟩
    · exact ⟨_, (loaderMove_of_finish (h.sel_of_j_eq hp hj)).trans (h.exec_finish_of_j_eq hp hj)⟩
  · exact ⟨_, loaderMove_of_ne (fun hsel => hp (sel_eq_step.1 hsel).1) (fun hsel => hp (sel_eq_finish.1 hsel).1)⟩

theorem LoaderInv.issue_goesOn (h : LoaderInv s) (a : AgentId) (w : CmdWord) : ∃ t, issue a w s = .next t := by
  cases hg : findCell s.pending a with
  | some g => exact ⟨_, issue_of_waiting hg⟩
  | none =>
    cases hd : decodeCommand w with
    | error r => exact ⟨_, issue_of_error hg hd⟩
    | ok i => exact issue_of_ok hg hd ▸ (h.onBehalfOf a).exec_command_goesOn (isCommand_of_decodeCommand hd)

theorem LoaderInv.poll_goesOn (h : LoaderInv s) (a : AgentId) : ∃ t, poll a s = .next t := by
  unfold poll
  split
  · exact ⟨_, rfl⟩
  · next g _ =>
    split
    · exact (h.takeHeld a).exec_gated_goesOn g
    · exact ⟨_, rfl⟩

/-- An operand that a selection asks for has its width (R81 (d)). -/
theorem exec_decodeDatapath_goesOn (d : Datapath) (s : State) : ∃ t, exec (decodeDatapath d) s = .next t := by
  cases d with
  | le64 v => exact ⟨_, exec_le64_of_length (length_leBytes ..)⟩
  | chunk w => exact ⟨_, exec_chunk_of_length (length_leBytes ..)⟩
  | fromraw w => exact ⟨_, exec_fromraw ..⟩

theorem LoaderInv.perform_goesOn (h : LoaderInv s) (e : Event) : ∃ t, perform e s = .next t := by
  cases e with
  | loader => exact h.loaderMove_goesOn
  | command a w => exact h.issue_goesOn a w
  | poll a => exact h.poll_goesOn a
  | evaluate d => exact exec_decodeDatapath_goesOn d s
  | reset => exact ⟨_, rfl⟩

theorem LoaderInv.unscheduledMove_goesOn (h : LoaderInv s) : ∃ t, unscheduledMove s = .next t := by
  unfold unscheduledMove
  split
  · exact h.loaderMove_goesOn
  · split
    · exact ⟨_, rfl⟩
    · exact h.poll_goesOn _

/-- With nothing scheduled a step is the unscheduled move. -/
theorem step_of_unscheduled (hs : s.schedule = []) : step s = unscheduledMove s := by
  rw [step, hs]

theorem LoaderInv.withSchedule (h : LoaderInv s) (events : List Event) : LoaderInv { s with schedule := events } :=
  ⟨h.plat, h.table, h.pending, h.phase⟩

/-- Settles O41: each move goes on, scheduled or not. -/
theorem everyStepGoesOn : Obligations.EveryStepGoesOn := by
  unfold Obligations.EveryStepGoesOn
  intro s h
  cases hs : s.schedule with
  | nil => exact step_of_unscheduled hs ▸ h.unscheduledMove_goesOn
  | cons e rest => exact step_of_scheduled hs ▸ (h.withSchedule rest).perform_goesOn e

/-! ### What is delivered (R109, result theorem) -/

/-- An operation that delivers an element is a READ that answers with the entry of its index. -/
theorem read_of_effect_element {st : Status} {e : FE} (h : Effect i s t)
    (hout : t.out = .response { agent := a, status := st, data := .element e }) :
    a = s.requester ∧ st = .ok ∧ s.phase = .ready ∧
      ∃ idx, i = .read idx ∧ idx.toNat < s.plat.nRec ∧ s.table.get idx.toNat = some e := by
  cases h with
  | delivered o ho => obtain ⟨-, hd | ⟨-, b, hd⟩⟩ := ho _ _ _ hout <;> cases hd
  | readAnswer idx e hi hr hp he =>
    cases hout
    exact ⟨rfl, rfl, hp, idx, hi, hr, he⟩
  | held _ _ _ | faulted _ _ _ | begun _ _ | begunHeld _ _ _ _ | stored _ _ _ _ _ | published _ _ => cases hout

/-- Neither the selector nor a datapath operand decodes to READ. -/
theorem decodeSequencer_ne_read (sel : Sel) (idx : Idx) : decodeSequencer sel ≠ .ok (.read idx) := by
  unfold decodeSequencer
  split
  · nofun
  · split <;> nofun

theorem decodeDatapath_ne_read (d : Datapath) (idx : Idx) : decodeDatapath d ≠ .read idx := by
  cases d <;> nofun

theorem Gated.eq_read_of_toInstr {idx : Idx} (h : g.toInstr = .read idx) : g = .read idx := by
  cases g <;> cases h
  rfl

/-- Settles O46: only a READ delivers an element, the entry of its index, and that is the decoded record; the READ is
the command issued in this move or the hold that is lifted by it. -/
theorem readDeliversTheDecodedRecord : Obligations.ReadDeliversTheDecodedRecord := by
  unfold Obligations.ReadDeliversTheDecodedRecord
  intro s t a st e h hstep hout
  have hrecord : s.phase = .ready → ∀ {idx : Idx}, idx.toNat < s.plat.nRec → s.table.get idx.toNat = some e →
      e = decodeRecord s.plat.rom idx.toNat := fun hp _ hidx he =>
    Option.some.inj (he.symm.trans (h.entry_of_ready hp hidx))
  cases step_next hstep with
  | reset _ =>
    obtain ⟨-, -, hsilent⟩ := takeReset_frame s.advanced
    cases hsilent.symm.trans hout
  | idle => cases hout
  | illegal a => cases hout
  | loader i _ hi hx =>
    obtain ⟨-, -, -, idx, rfl, -⟩ := read_of_effect_element (exec_next hx) hout
    exact absurd hi (decodeSequencer_ne_read _ idx)
  | datapath d _ hx =>
    obtain ⟨-, -, -, idx, hi, -⟩ := read_of_effect_element (exec_next hx) hout
    exact absurd hi (decodeDatapath_ne_read d idx)
  | command b w i _ hs _ hi hx =>
    obtain ⟨rfl, rfl, hp, idx, rfl, hidx, he⟩ := read_of_effect_element (exec_next hx) hout
    exact ⟨hp, rfl, idx, hidx, hrecord hp hidx he, .inl ⟨w, hs, hi⟩⟩
  | lifted b g _ hg _ hx =>
    obtain ⟨rfl, rfl, hp, idx, hi, hidx, he⟩ := read_of_effect_element (exec_next hx) hout
    exact ⟨hp, rfl, idx, hidx, hrecord hp hidx he, .inr (Gated.eq_read_of_toInstr hi ▸ hg)⟩

/-- A response with data is given in READY alone. -/
theorem ready_of_effect_data {r : Response} (h : Effect i s t) (hout : t.out = .response r) :
    r.data = .noData ∨ s.phase = .ready := by
  cases h with
  | delivered o ho =>
    obtain ⟨-, hd | ⟨hp, -⟩⟩ := ho _ _ _ hout
    · exact .inl hd
    · exact .inr hp
  | readAnswer idx e _ _ hp _ => exact .inr hp
  | held _ _ _ | begunHeld _ _ _ _ | stored _ _ _ _ _ | published _ _ => cases hout
  | faulted _ _ _ | begun _ _ =>
    cases hout
    exact .inl rfl

theorem ready_of_step_data {r : Response} (h : step s = .next t) (hout : t.out = .response r) :
    r.data = .noData ∨ s.phase = .ready := by
  rcases reset_or_effect_of_step h with ⟨-, rfl⟩ | ⟨i, u, heff, -, hsame⟩
  · obtain ⟨-, -, hsilent⟩ := takeReset_frame s.advanced
    cases hsilent.symm.trans hout
  · exact hsame.phase ▸ ready_of_effect_data heff hout

/-- Settles O47: data is given in READY alone, and READY has a ROM of the right length. -/
theorem badResourceNeverGivesData : Obligations.BadResourceNeverGivesData := by
  unfold Obligations.BadResourceNeverGivesData
  intro s t r h hlen hstep hout
  refine (ready_of_step_data hstep hout).resolve_right fun hp => hlen ?_
  obtain ⟨hdefect, -⟩ := h.ofReady hp
  rw [defect_eq_none.1 hdefect, romLenExpected_eq]

/-- Settles O49: the view is READY's alone, and there it is the decoded table. -/
theorem tableViewIsTheDecodedTable : Obligations.TableViewIsTheDecodedTable := by
  unfold Obligations.TableViewIsTheDecodedTable
  intro s h
  split
  · next hp => exact h.tableView_of_ready hp
  · next hp =>
    unfold State.tableView
    split
    · contradiction
    all_goals rfl

/-! ### With nothing scheduled (R111, R164; log entry 5) -/

/-- In BUSY the loader agent moves. -/
theorem step_of_unscheduled_busy (hs : s.schedule = []) (hp : s.phase = .busy) : step s = loaderMove s := by
  simp [step_of_unscheduled hs, unscheduledMove, State.loaderEnabled, hp]

theorem performAll_cons_next {ops : List Instr} (h : performAll (i :: ops) s = .next t) :
    ∃ u, exec i s = .next u ∧ performAll ops u = .next t := by
  unfold performAll at h
  split at h
  · next u hu => exact ⟨u, hu, h⟩
  · cases h
  · cases h

/-- A loader step that is performed is the loader agent's move, in BUSY, and no business of the agents. -/
theorem loaderStep_of_exec (hi : i = .step ∨ i = .finish) (h : exec i s = .next t) :
    loaderMove s = .next t ∧ s.phase = .busy ∧ t.schedule = s.schedule ∧ t.pending = s.pending := by
  rcases hi with rfl | rfl
  · obtain ⟨hsel, -, C, -, rfl⟩ := execStep_next h
    exact ⟨(loaderMove_of_step hsel).trans h, (sel_eq_step.1 hsel).1, rfl, rfl⟩
  · obtain ⟨hsel, rfl⟩ := execFinish_next h
    exact ⟨(loaderMove_of_finish hsel).trans h, (sel_eq_finish.1 hsel).1, rfl, rfl⟩

/-- Loader steps performed one after the other touch no held command, and with nothing scheduled they are the steps of
the block. -/
theorem run_of_performAll {ops : List Instr} (hops : ∀ i ∈ ops, i = .step ∨ i = .finish)
    (h : performAll ops s = .next t) :
    t.pending = s.pending ∧ (s.schedule = [] → core.run ops.length s = .next t) := by
  induction ops generalizing s with
  | nil =>
    cases h
    exact ⟨rfl, fun _ => rfl⟩
  | cons i rest ih =>
    obtain ⟨u, hx, hrest⟩ := performAll_cons_next h
    obtain ⟨hmove, hp, hschedule, hpending⟩ := loaderStep_of_exec (hops i List.mem_cons_self) hx
    obtain ⟨hpending', hrun⟩ := ih (fun i hi => hops i (List.mem_cons_of_mem _ hi)) hrest
    refine ⟨hpending'.trans hpending, fun hs => ?_⟩
    exact (run_succ _ ((step_of_unscheduled_busy hs hp).trans hmove)).trans (hrun (hschedule.trans hs))

/-- From BUSY the STEPs that remain and FINISH end the build, and no held command is touched. -/
theorem LoaderInv.run_finishes (h : LoaderInv s) (hp : s.phase = .busy) :
    ∃ t, loaderRun (s.plat.nRec - s.j.toNat + 1) s = .next t ∧ BuildFinished s t ∧ t.pending = s.pending ∧
      (s.schedule = [] → core.run (s.plat.nRec - s.j.toNat + 1) s = .next t) := by
  obtain ⟨-, -, -, -, hle, -⟩ := h.ofBusy hp
  obtain ⟨t, hloader, hall, hfin⟩ := h.build_finishes hp (Nat.add_sub_of_le hle)
  obtain ⟨hpending, hrun⟩ := run_of_performAll
    (fun i hi => (List.mem_append.1 hi).imp List.eq_of_mem_replicate List.mem_singleton.1) hall
  exact ⟨t, hloader, hfin, hpending, by simpa using hrun⟩

/-- Settles O53: `N_REC - j` STEPs and one FINISH are left, and the invariants say what they leave in READY. -/
theorem buildFinishesInTheStepsThatRemain : Obligations.BuildFinishesInTheStepsThatRemain := by
  unfold Obligations.BuildFinishesInTheStepsThatRemain
  intro s h hp hs
  obtain ⟨t, -, ⟨hinv, hready, hplat⟩, hpending, hrun⟩ := h.run_finishes hp
  exact ⟨t, hrun hs, hready, hpending, hplat ▸ hinv.tableView_of_ready hready⟩

/-- In READY the first held command is answered and dropped, and nothing of the result changes. -/
theorem LoaderInv.step_answers_first (h : LoaderInv s) (hp : s.phase = .ready) (hs : s.schedule = []) {held : Pending}
    (hheld : s.pending = (a, g) :: held) :
    ∃ st d, step s = .next (({ s with requester := a, pending := held } : State).answer st d) := by
  have hfind : findCell s.pending a = some g := by rw [hheld, findCell_cons, if_pos rfl]
  have htake : s.takeHeld a = { s with requester := a, pending := held } := by
    simp [State.takeHeld, hheld, dropCell]
  have hmove : step s = poll a s := by
    simp [step_of_unscheduled hs, unscheduledMove, State.loaderEnabled, hp, hheld]
  obtain ⟨st, d, hexec⟩ := (h.takeHeld a).exec_gated_of_ready hp g
  exact ⟨st, d, by rw [hmove, poll_of_lifted hfind (.inl hp), hexec, htake]⟩

/-- As many steps as there are held commands answer them all. -/
theorem LoaderInv.run_answers_all (h : LoaderInv s) (hp : s.phase = .ready) (hs : s.schedule = []) {held : Pending}
    (hheld : s.pending = held) :
    ∃ t, core.run held.length s = .next t ∧ t.pending = [] ∧ t.phase = .ready ∧ t.table = s.table := by
  induction held generalizing s with
  | nil => exact ⟨s, rfl, hheld, hp, rfl⟩
  | cons c held ih =>
    obtain ⟨st, d, hstep⟩ := h.step_answers_first hp hs hheld
    obtain ⟨t, hrun, hend⟩ := ih (h.of_step hstep) hp hs rfl
    exact ⟨t, (run_succ _ hstep).trans hrun, hend⟩

/-- Settles O54: each step answers the first hold, so as many steps as holds leave none. -/
theorem heldCommandsAreAllAnswered : Obligations.HeldCommandsAreAllAnswered := by
  unfold Obligations.HeldCommandsAreAllAnswered
  refine fun s h hp hs => ⟨fun a g held hheld => ?_, h.run_answers_all hp hs rfl⟩
  obtain ⟨st, d, hstep⟩ := h.step_answers_first hp hs hheld
  exact ⟨_, st, d, hstep, rfl, rfl⟩

end Sys2Proof.Machine
end

section
/-! PROOFS. Family 43_validation.md, the round trip under the two illustrative libraries (95_test_vectors.md section 5):
both decode what they encode to the four limbs of `RawInt` modulo the prime. -/

namespace Sys2Proof.Machine

variable {x : FE}

/-! ### Limbs and the integer they spell (R92) -/

theorem limbsOf_rawInt (x : FE) : limbsOf (rawInt x) = x := by
  have h0 := x.l0.isLt
  have h1 := x.l1.isLt
  have h2 := x.l2.isLt
  have h3 := x.l3.isLt
  cases x
  simp only [limbsOf, rawInt, FE.mk.injEq] at *
  refine ⟨?_, ?_, ?_, ?_⟩ <;>
  · apply BitVec.eq_of_toNat_eq
    rw [BitVec.toNat_ofNat]
    omega

theorem rawInt_limbsOf {n : Nat} (h : n < 2 ^ 256) : rawInt (limbsOf n) = n := by
  simp only [limbsOf, rawInt, BitVec.toNat_ofNat]
  omega

/-- The limbs of a number below `2^256` are those of an element exactly if they spell the number. -/
theorem limbsOf_eq_iff {n : Nat} (h : n < 2 ^ 256) : limbsOf n = x ↔ n = rawInt x :=
  ⟨fun heq => heq ▸ (rawInt_limbsOf h).symm, fun heq => heq ▸ limbsOf_rawInt x⟩

/-! ### `LE32` and its inverse (95_test_vectors.md section 5) -/

theorem leBytes_eq_map_le32Byte (n v : Nat) : leBytes n v = (List.range n).map (le32Byte v) := by
  induction n generalizing v with
  | zero => rfl
  | succ n ih =>
    have hbyte : ∀ k, le32Byte (v / 256) k = le32Byte v (k + 1) := fun k => by
      rw [le32Byte, le32Byte, Nat.div_div_eq_div_mul, pow_succ']
    simp only [leBytes, ih, List.range_succ_eq_map, List.map_cons, List.map_map, List.cons.injEq]
    exact ⟨by simp [le32Byte], List.map_congr_left fun k _ => hbyte k⟩

theorem leNat_eq_foldr (bytes : List Byte) : leNat bytes = bytes.foldr (fun b acc => b.toNat + 256 * acc) 0 := by
  induction bytes with
  | nil => rfl
  | cons b rest ih => rw [leNat, ih, List.foldr_cons]

/-- Reading back the 32 bytes of a number gives the number, cut to them. -/
theorem le32Value_le32Byte (n : Nat) : le32Value (fun k => le32Byte n k.val) = n % 2 ^ 256 := by
  have hbytes : (List.finRange 32).map (fun k => le32Byte n k.val) = leBytes 32 n := by
    rw [leBytes_eq_map_le32Byte, ← List.map_coe_finRange_eq_range, List.map_map]
    rfl
  calc le32Value (fun k => le32Byte n k.val)
    _ = leNat ((List.finRange 32).map fun k => le32Byte n k.val) := by
      rw [leNat_eq_foldr, List.foldr_map, le32Value]
    _ = n % 256 ^ 32 := by rw [hbytes, leNat_leBytes]
    _ = n % 2 ^ 256 := by norm_num

/-! ### The two libraries -/

theorem illustrativePrime_pos : 0 < illustrativePrime := by decide

theorem illustrativePrime_lt : illustrativePrime < 2 ^ 256 := by decide

/-- What is encoded is below the prime, so it reads back whole. -/
theorem le32Value_of_lt_prime {n : Nat} (h : n < illustrativePrime) : le32Value (fun k => le32Byte n k.val) = n := by
  rw [le32Value_le32Byte, Nat.mod_eq_of_lt (h.trans illustrativePrime_lt)]

/-- `montInverse` is the inverse of `2^256`, so the two factors of LIB_MONT cancel. -/
theorem mont_cancel (n : Nat) : n * montInverse % illustrativePrime * 2 ^ 256 % illustrativePrime
    = n % illustrativePrime := by
  have hinv : montInverse * 2 ^ 256 % illustrativePrime = 1 := by decide
  rw [Nat.mod_mul_mod, Nat.mul_assoc, Nat.mul_mod, hinv, Nat.mul_one, Nat.mod_mod]

theorem fieldDecode_plain (bytes : Fin 32 → Byte) :
    fieldDecode .plain bytes
      = if le32Value bytes < illustrativePrime then some (limbsOf (le32Value bytes)) else none := rfl

theorem fieldDecode_mont (bytes : Fin 32 → Byte) :
    fieldDecode .mont bytes
      = if le32Value bytes < illustrativePrime then some (limbsOf (le32Value bytes * 2 ^ 256 % illustrativePrime))
        else none := rfl

theorem fieldDecode_fieldEncode {lib : FieldLib} (h : lib ≠ .blackBox) (x : FE) :
    fieldDecode lib (fieldEncode lib x) = some (limbsOf (rawInt x % illustrativePrime)) := by
  have hlt : ∀ n, n % illustrativePrime < illustrativePrime := fun n => Nat.mod_lt n illustrativePrime_pos
  cases lib with
  | blackBox => exact absurd rfl h
  | plain =>
    have hback : le32Value (fieldEncode .plain x) = rawInt x % illustrativePrime := le32Value_of_lt_prime (hlt _)
    refine (fieldDecode_plain _).trans ?_
    rw [hback, if_pos (hlt _)]
  | mont =>
    have hback : le32Value (fieldEncode .mont x) = rawInt x * montInverse % illustrativePrime :=
      le32Value_of_lt_prime (hlt _)
    refine (fieldDecode_mont _).trans ?_
    rw [hback, if_pos (hlt _), mont_cancel]

/-- Settles O24: what comes back are the limbs of `RawInt` modulo the prime, so the element's own exactly below it. -/
theorem roundTripMeansBelowThePrime : Obligations.RoundTripMeansBelowThePrime := by
  unfold Obligations.RoundTripMeansBelowThePrime
  intro p x hlib hlimbwise
  have hlt : rawInt x % illustrativePrime < illustrativePrime := Nat.mod_lt _ illustrativePrime_pos
  rw [roundTrips_iff_of_limbwise hlimbwise, fieldDecode_fieldEncode hlib, Option.some_inj,
    limbsOf_eq_iff (hlt.trans illustrativePrime_lt), Nat.mod_eq_iff_lt illustrativePrime_pos.ne']

end Sys2Proof.Machine
end

section
/-! PROOFS. Family 43_validation.md, VALIDATE (R75, R123): CHKLEN brings the block to READY or finds it faulted, and
from there the checks of the entries deliver and write nothing, so the pass names the first check that fails. -/

namespace Sys2Proof.Machine

variable {s t u : State} {g : Gated} {checks : List Gated} {n : Nat} {agent : AgentId}

/-! ### The checks of the pass (R75) -/

/-- The checks after CHKLEN: CHKNZ and CHKRT of each entry in turn. -/
def entryChecks (n : Nat) : List Gated :=
  (List.range n).flatMap fun k => [.chknz (BitVec.ofNat 10 k), .chkrt (BitVec.ofNat 10 k)]

theorem validateChecks_eq_cons (n : Nat) : validateChecks n = .chklen :: entryChecks n := rfl

theorem mem_entryChecks :
    g ∈ entryChecks n ↔ ∃ m < n, g = .chknz (BitVec.ofNat 10 m) ∨ g = .chkrt (BitVec.ofNat 10 m) := by
  simp [entryChecks]

theorem toNat_entryIdx {m : Nat} (hn : n ≤ 960) (hm : m < n) : (BitVec.ofNat 10 m).toNat = m := by
  rw [BitVec.toNat_ofNat]
  omega

/-- The pass consists of checks whose index is an entry's. -/
theorem check_of_mem_validateChecks (hn : n ≤ 960) (hg : g ∈ validateChecks n) :
    (∀ idx, g ≠ .read idx) ∧ gateInRange g n = true := by
  rw [validateChecks_eq_cons, List.mem_cons, mem_entryChecks] at hg
  rcases hg with rfl | ⟨m, hm, rfl | rfl⟩
  · exact ⟨nofun, rfl⟩
  all_goals exact ⟨nofun, decide_eq_true (by rwa [toNat_entryIdx hn hm])⟩

/-- Does a check fail on the record the ROM holds for its entry (R121, R122)? -/
def recordFails (p : Platform) : Gated → Bool
  | .read _ => false
  | .chklen => false
  | .chknz idx => feEq p (decodeRecord p.rom idx.toNat) (fieldZero p.lib)
  | .chkrt idx => !roundTrips p (decodeRecord p.rom idx.toNat)

/-- No check of the pass fails exactly if no record is zero and every record round-trips. -/
theorem find?_recordFails_eq_none {p : Platform} (hn : n ≤ 960) :
    (validateChecks n).find? (recordFails p) = none ↔
      ∀ m < n, feEq p (decodeRecord p.rom m) (fieldZero p.lib) = false ∧
        roundTrips p (decodeRecord p.rom m) = true := by
  rw [List.find?_eq_none]
  refine ⟨fun hall m hm => ?_, fun hall g hg => ?_⟩
  · have hnz := hall (.chknz (BitVec.ofNat 10 m)) (.tail _ (mem_entryChecks.2 ⟨m, hm, .inl rfl⟩))
    have hrt := hall (.chkrt (BitVec.ofNat 10 m)) (.tail _ (mem_entryChecks.2 ⟨m, hm, .inr rfl⟩))
    simpa [recordFails, toNat_entryIdx hn hm] using And.intro hnz hrt
  · rw [validateChecks_eq_cons, List.mem_cons, mem_entryChecks] at hg
    rcases hg with rfl | ⟨m, hm, rfl | rfl⟩
    · simp [recordFails]
    all_goals simp [recordFails, toNat_entryIdx hn hm, hall m hm]

/-! ### Checks that are answered at once -/

theorem passed_answer (s : State) (st : Status) (d : RespData) :
    (s.answer st d).passed = decide (st = .ok ∧ d = .check true) := by
  simp [State.passed, Bool.beq_eq_decide_eq]

theorem answered_of_exec_answer {st : Status} {d : RespData} (hfree : findCell s.pending s.requester = none)
    (h : exec g.toInstr s = .next (s.answer st d)) : answered g s = .next (s.answer st d) :=
  answered_of_answer h (by simp [State.waits, hfree])

/-- Where every check is answered without data the first one is named. -/
theorem runChecks_of_all_refused {st : Status} (hfree : findCell s.pending s.requester = none)
    (hall : ∀ g ∈ checks, ∀ o, exec g.toInstr (s.emit o) = .next ((s.emit o).answer st .noData)) :
    ∃ o, runChecks checks s = .next (s.emit o, checks.head?) := by
  obtain ⟨o, hrun⟩ := runChecks_find (s := s) (delivers := fun _ => (s.answer st .noData).out)
    (fails := fun _ => true) (fun g hg o => answered_of_exec_answer (s := s.emit o) hfree (hall g hg o))
    (fun g _ => (passed_answer s st .noData).trans (by simp)) s.out
  have hhead : checks.find? (fun _ => true) = checks.head? := by cases checks <;> rfl
  exact ⟨o, hhead ▸ hrun⟩

/-- Without `TEST_EN` every check is illegal (R70 (d)). -/
theorem runChecks_of_not_testEn (hfree : findCell s.pending s.requester = none) (hen : s.plat.testEn = false)
    (hchecks : ∀ g ∈ checks, ∀ idx, g ≠ .read idx) : ∃ o, runChecks checks s = .next (s.emit o, checks.head?) :=
  runChecks_of_all_refused hfree fun g hg _ => exec_check_of_not_testEn (hchecks g hg) hen

/-- In FAULT every check raises ResourceShape again (R126). -/
theorem runChecks_of_fault (hfree : findCell s.pending s.requester = none) (hen : s.plat.testEn = true)
    (hp : s.phase = .fault) (hchecks : ∀ g ∈ checks, (∀ idx, g ≠ .read idx) ∧ gateInRange g s.plat.nRec = true) :
    ∃ o, runChecks checks s = .next (s.emit o, checks.head?) :=
  runChecks_of_all_refused hfree fun g hg _ => exec_check_of_fault (hchecks g hg).1 hen (hchecks g hg).2 hp

/-- In READY the verdict of a check is what the ROM says of its record. -/
theorem LoaderInv.verdict_of_ready (h : LoaderInv s) (hp : s.phase = .ready) (hg : ∀ idx, g ≠ .read idx)
    (hr : gateInRange g s.plat.nRec = true) : s.verdict g = some (!recordFails s.plat g) := by
  cases g with
  | read idx => exact absurd rfl (hg idx)
  | chklen => exact h.verdict_chklen hp
  | chknz idx => exact congrArg (Option.map _) (h.entry_of_ready hp (of_decide_eq_true hr))
  | chkrt idx =>
    refine (congrArg (Option.map _) (h.entry_of_ready hp (of_decide_eq_true hr))).trans ?_
    simp [recordFails]

/-- In READY a pass names the first check that fails on its record. -/
theorem LoaderInv.runChecks_of_ready (h : LoaderInv s) (hp : s.phase = .ready)
    (hfree : findCell s.pending s.requester = none) (hen : s.plat.testEn = true)
    (hchecks : ∀ g ∈ checks, (∀ idx, g ≠ .read idx) ∧ gateInRange g s.plat.nRec = true) :
    ∃ o, runChecks checks s = .next (s.emit o, checks.find? (recordFails s.plat)) := by
  refine runChecks_find (delivers := fun g => (s.answer .ok (.check !recordFails s.plat g)).out) (fun g hg o => ?_)
    (fun g _ => (passed_answer s .ok _).trans (by simp)) s.out
  obtain ⟨hcheck, hr⟩ := hchecks g hg
  exact answered_of_exec_answer (s := s.emit o) hfree
    (exec_check_of_ready (s := s.emit o) hcheck hen hr hp ((h.emit o).verdict_of_ready hp hcheck hr))

/-! ### CHKLEN performed to its end (R106, R126) -/

theorem loaderRun_succ_next (h : loaderRun (n + 1) s = .next t) :
    (s.loaderEnabled = false ∧ t = s) ∨
      (s.loaderEnabled = true ∧ ∃ u, loaderMove s = .next u ∧ loaderRun n u = .next t) := by
  unfold loaderRun at h
  split at h
  · next hen =>
    split at h
    · next u hu => exact .inr ⟨hen, u, hu, h⟩
    · cases h
    · cases h
  · next hen =>
    cases h
    exact .inl ⟨Bool.eq_false_iff.2 hen, rfl⟩

/-- Once the loader agent has no step, more moves change nothing. -/
theorem loaderRun_add (k : Nat) (h : loaderRun n s = .next t) (ht : t.loaderEnabled = false) :
    loaderRun (n + k) s = .next t := by
  induction n generalizing s with
  | zero =>
    cases h
    exact loaderRun_of_not_enabled _ ht
  | succ n ih =>
    rcases loaderRun_succ_next h with ⟨hnot, rfl⟩ | ⟨hen, u, hmove, hrun⟩
    · exact loaderRun_of_not_enabled _ hnot
    · rw [Nat.succ_add]
      exact (loaderRun_of_next _ hen hmove).trans (ih hrun)

/-- `N_REC + 1` moves of the loader agent are enough to finish any build. -/
theorem LoaderInv.loaderRun_finishes (h : LoaderInv s) (hp : s.phase = .busy) :
    ∃ t, loaderRun (s.plat.nRec + 1) s = .next t ∧ BuildFinished s t ∧ t.pending = s.pending := by
  obtain ⟨-, -, -, -, hle, -⟩ := h.ofBusy hp
  obtain ⟨t, hrun, ⟨hinv, hready, hplat⟩, hpending, -⟩ := h.run_finishes hp
  have hmore := loaderRun_add s.j.toNat hrun (by simp [State.loaderEnabled, hready])
  rw [show s.plat.nRec - s.j.toNat + 1 + s.j.toNat = s.plat.nRec + 1 by omega] at hmore
  exact ⟨t, hmore, ⟨hinv, hready, hplat⟩, hpending⟩

/-- READY with the ROM and straps `p`, where CHKLEN has just delivered PASS to the agent, for whom nothing is held. -/
structure ChklenPassed (p : Platform) (agent : AgentId) (u : State) : Prop where
  inv : LoaderInv u
  ready : u.phase = .ready
  plat : u.plat = p
  requester : u.requester = agent
  free : findCell u.pending agent = none
  passed : u.passed = true

/-- In READY CHKLEN passes at once. -/
theorem LoaderInv.exec_chklen_of_ready (h : LoaderInv s) (hp : s.phase = .ready) (hen : s.plat.testEn = true) :
    exec .chklen s = .next (s.answer .ok (.check true)) :=
  exec_check_of_ready (g := .chklen) nofun hen rfl hp (h.verdict_chklen hp)

theorem LoaderInv.chklenPassed_of_ready (h : LoaderInv s) (hp : s.phase = .ready)
    (hfree : findCell s.pending s.requester = none) :
    ChklenPassed s.plat s.requester (s.answer .ok (.check true)) :=
  ⟨h.emit _, hp, rfl, rfl, hfree, (passed_answer s _ _).trans (by simp)⟩

/-- CHKLEN held in BUSY waits for the build, and then passes. -/
theorem LoaderInv.answered_chklen_of_hold (h : LoaderInv s) (hp : s.phase = .busy) (hen : s.plat.testEn = true)
    (hx : exec .chklen u = .next (s.hold .chklen)) :
    ∃ t, answered .chklen u = .next t ∧ ChklenPassed s.plat s.requester t := by
  obtain ⟨v, hrun, ⟨hinv, hready, hplat⟩, hpending⟩ := (h.hold hp .chklen).loaderRun_finishes hp
  have hheld : findCell (s.hold .chklen).pending s.requester = some .chklen := by
    rw [State.hold_pending, findCell_setCell, if_pos rfl]
  have hanswered : answered .chklen u = poll s.requester v :=
    answered_of_hold (g := .chklen) (t := s.hold .chklen) hx (congrArg Option.isSome hheld) hrun
  have hpoll : poll s.requester v = exec .chklen (v.takeHeld s.requester) :=
    poll_of_lifted (hpending ▸ hheld) (.inl hready)
  have hfree : findCell (dropCell v.pending s.requester) s.requester = none := by
    rw [findCell_dropCell hinv.pending, if_pos rfl]
  have hdone := hinv.takeHeld s.requester
  have hexec := hdone.exec_chklen_of_ready hready (by rw [State.takeHeld_plat, hplat]; exact hen)
  have hpassed : ChklenPassed v.plat s.requester _ := hdone.chklenPassed_of_ready hready hfree
  exact ⟨_, hanswered.trans (hpoll.trans hexec), hplat ▸ hpassed⟩

/-- With a ROM of the right length CHKLEN ends in READY and passes, whatever phase it was issued in. -/
theorem LoaderInv.answered_chklen (h : LoaderInv s) (hen : s.plat.testEn = true) (hd : s.plat.defect = none)
    (hfree : findCell s.pending s.requester = none) :
    ∃ t, answered .chklen s = .next t ∧ ChklenPassed s.plat s.requester t := by
  obtain ⟨f, hexec⟩ := exec_gated_of_allowed (s := s) (g := .chklen) (.inl hen)
  cases hp : s.phase with
  | unbuilt =>
    refine (h.beginBuild hp hd).answered_chklen_of_hold (s := s.beginBuild) rfl hen (hexec.trans ?_)
    rw [gated_of_unbuilt rfl hp, firstUse_of_none hd]
  | busy => exact h.answered_chklen_of_hold hp hen (hexec.trans (gated_of_busy rfl hp f))
  | ready =>
    exact ⟨_, answered_of_exec_answer hfree (h.exec_chklen_of_ready hp hen), h.chklenPassed_of_ready hp hfree⟩
  | fault =>
    obtain ⟨hdefect, -⟩ := h.ofFault hp
    cases hd.symm.trans hdefect

/-! ### The whole pass (R123) -/

/-- With `TEST_EN` and a ROM of the right length. -/
theorem LoaderInv.runChecks_of_length_eq (h : LoaderInv s) (hen : s.plat.testEn = true) (hd : s.plat.defect = none)
    (hfree : findCell s.pending s.requester = none) :
    ∃ t, runChecks (validateChecks s.plat.nRec) s
        = .next (t, (validateChecks s.plat.nRec).find? (recordFails s.plat)) ∧
      LoaderInv t ∧ t.phase = .ready ∧ t.plat = s.plat ∧ findCell t.pending s.requester = none := by
  obtain ⟨u, hfirst, hu⟩ := h.answered_chklen hen hd hfree
  obtain ⟨o, hrest⟩ := hu.inv.runChecks_of_ready (checks := entryChecks s.plat.nRec) hu.ready (hu.requester ▸ hu.free)
    (hu.plat ▸ hen) (fun g hg => hu.plat ▸ check_of_mem_validateChecks h.nRec_le (.tail _ hg))
  refine ⟨u.emit o, ?_, hu.inv.emit o, hu.ready, hu.plat, hu.free⟩
  rw [validateChecks_eq_cons, runChecks_cons hfirst hrest, if_pos hu.passed, hu.plat]
  rfl

/-- With `TEST_EN` and any other ROM: the fault is found by CHKLEN, or was taken before. -/
theorem LoaderInv.runChecks_of_defect (h : LoaderInv s) (hen : s.plat.testEn = true) {c : FCode}
    (hd : s.plat.defect = some c) (hfree : findCell s.pending s.requester = none) :
    ∃ t, runChecks (validateChecks s.plat.nRec) s = .next (t, some .chklen) ∧ t.phase = .fault ∧ t.table = s.table := by
  have hchecks : ∀ g ∈ validateChecks s.plat.nRec, (∀ idx, g ≠ .read idx) ∧ gateInRange g s.plat.nRec = true :=
    fun g => check_of_mem_validateChecks h.nRec_le
  cases hp : s.phase with
  | unbuilt =>
    obtain ⟨f, hexec⟩ := exec_gated_of_allowed (s := s) (g := .chklen) (.inl hen)
    rw [gated_of_unbuilt rfl hp, firstUse_of_defect hd] at hexec
    have hfirst : answered .chklen s = .next (s.takeResourceShape c) :=
      answered_of_answer hexec (by simp [State.waits, hfree])
    obtain ⟨o, hrest⟩ := runChecks_of_fault (s := s.takeResourceShape c) hfree hen rfl
      fun g hg => hchecks g (.tail _ hg)
    have hfails : (s.takeResourceShape c).passed = false := by simp [State.passed]
    have hrun := runChecks_cons hfirst hrest
    rw [hfails] at hrun
    exact ⟨_, hrun, rfl, rfl⟩
  | busy =>
    obtain ⟨-, hnone, -⟩ := h.ofBusy hp
    cases hnone.symm.trans hd
  | ready =>
    obtain ⟨hnone, -⟩ := h.ofReady hp
    cases hnone.symm.trans hd
  | fault =>
    obtain ⟨o, hrun⟩ := runChecks_of_fault hfree hen hp hchecks
    exact ⟨_, hrun, hp, rfl⟩

/-- Settles O25: the ROM length and `TEST_EN` decide how CHKLEN ends, and in READY the checks judge the records. -/
theorem validateJudgesTheRom : Obligations.ValidateJudgesTheRom := by
  unfold Obligations.ValidateJudgesTheRom
  intro agent s h hfree
  have hinv := h.onBehalfOf agent
  refine ⟨fun hen hlen => ?_, fun hen hlen => ?_, fun hen => ?_⟩
  · obtain ⟨t, hrun, ht, hready, hplat, hnone⟩ := hinv.runChecks_of_length_eq hen (defect_of_romLen_eq hlen) hfree
    exact ⟨t, _, hrun, hready, hplat, hnone, hplat ▸ ht.tableView_of_ready hready, rfl,
      find?_recordFails_eq_none h.nRec_le⟩
  · exact hinv.runChecks_of_defect hen (defect_of_romLen_ne hlen) hfree
  · have hchecks : ∀ g ∈ validateChecks s.plat.nRec, ∀ idx, g ≠ .read idx := fun g hg =>
      (check_of_mem_validateChecks h.nRec_le hg).1
    obtain ⟨o, hrun⟩ := runChecks_of_not_testEn (s := s.onBehalfOf agent) hfree hen hchecks
    exact ⟨_, hrun, rfl⟩

end Sys2Proof.Machine
end
